-- ==== Sys2Proof/Word.lean ====
section
/-! DEFINITION. The value types of the engine (spec/00_scope.md R9): a byte is 8 bits, a word is 64 bits, all values
are unsigned. `+`, `^^^`, `|||` and `<<<` on `Word` are the wrap-around operators of R10 and R125 to R128. -/

namespace Sys2Proof

/-- A word is 64 bits (R9). -/
abbrev Word := BitVec 64

/-- A byte is 8 bits (R9). -/
abbrev Byte := BitVec 8

/-- A host request packed into one number, `REQ[130:0]` (spec/30_encoding.md R90). -/
abbrev ReqWord := BitVec 131

/-- A phase code, the width of PHASE (spec/10_state.md R27). -/
abbrev PhaseCode := BitVec 4

end Sys2Proof
end

