-- ==== Sys2Proof/Syntax.lean ====
section
/-! DEFINITION. The instructions: one constructor per row of spec/opcode_table.json, in the table's order (spec/30_encoding.md R91, R93,
R100), and the two command operations of acceptance (spec/44_commands.md R184). -/

namespace Sys2Proof

/-- The fifteen rows of the opcode table. Operands are those the rules give: `addr` and `wdata` are whole 64-bit
words (R92), commands and micro-operations have none (R93, R100). -/
inductive Instr where
  /-- CSRR (R190): read the CSR numbered `addr`. A read ignores `wdata` (R92), so it is no operand. -/
  | csrr (addr : Word)
  /-- CSRW (R191): write the CSR numbered `addr`, or issue a command when `addr` is 0. -/
  | csrw (addr wdata : Word)
  /-- KEYW (R192): write one key byte, `wdata[7:0]`. -/
  | keyw (addr wdata : Word)
  /-- MSGW (R193): write one message byte, `wdata[7:0]`. -/
  | msgw (addr wdata : Word)
  /-- HASH (R185): the command word 1. -/
  | hash
  /-- HASH24 (R186): the command word 2. -/
  | hash24
  /-- INIT (R140), PHASE = 1. -/
  | init
  /-- LDBLK (R142), PHASE = 2. -/
  | ldblk
  /-- LDTAIL (R160), PHASE = 3. -/
  | ldtail
  /-- XIN (R143), PHASE = 4. -/
  | xin
  /-- CRND (R133), PHASE = 5. -/
  | crnd
  /-- XOUT (R145), PHASE = 6. -/
  | xout
  /-- XFF (R164), PHASE = 7. -/
  | xff
  /-- FRND (R134), PHASE = 8. -/
  | frnd
  /-- FOLD (R166), PHASE = 9. -/
  | fold
deriving DecidableEq, Repr

/-- The `op` of `accept(op)` (R184). -/
inductive Op where
  | hash
  | hash24
deriving DecidableEq, Repr

/-- The command's row of the opcode table. -/
def Op.instr : Op → Instr
  | .hash => .hash
  | .hash24 => .hash24

end Sys2Proof
end

