-- ==== Sys2Proof/WellFormed.lean ====
section
/-! DEFINITION. Which instruction terms are the decoding of some word. Every 64-bit operand is legal (spec/30_encoding.md R92, R105), so
the one check is on CSRW: a write of 1 or 2 to address 0 is the command HASH or HASH24 (spec/10_state.md R35, the second
look-up of R105) and is written `.hash` or `.hash24`. Assumption 8. -/

namespace Sys2Proof

/-- A CSRW of a command word to CMD is not a CSRW term of its own: it is the command (R35, R105). -/
def Instr.wellFormed : Instr → Bool
  | .csrr _ => true
  | .csrw addr wdata => !(addr == 0#64 && (wdata == 1#64 || wdata == 2#64))
  | .keyw _ _ => true
  | .msgw _ _ => true
  | .hash => true
  | .hash24 => true
  | .init => true
  | .ldblk => true
  | .ldtail => true
  | .xin => true
  | .crnd => true
  | .xout => true
  | .xff => true
  | .frnd => true
  | .fold => true

end Sys2Proof
end

