-- ==== Sys2Proof/Decode.lean ====
section
/-! DEFINITION. The three decoders of spec/30_encoding.md R105 (on the 3-bit kind of a request, on the word written to CMD, on
PHASE), total and rejecting by name, and the encoder written from the same tables. -/

namespace Sys2Proof

/-! ### The codes -/

/-! The phase codes of spec/10_state.md R27. -/
abbrev Phase.idle : PhaseCode := 0#4
abbrev Phase.init : PhaseCode := 1#4
abbrev Phase.ldblk : PhaseCode := 2#4
abbrev Phase.ldtail : PhaseCode := 3#4
abbrev Phase.xin : PhaseCode := 4#4
abbrev Phase.crnd : PhaseCode := 5#4
abbrev Phase.xout : PhaseCode := 6#4
abbrev Phase.xff : PhaseCode := 7#4
abbrev Phase.frnd : PhaseCode := 8#4
abbrev Phase.fold : PhaseCode := 9#4

/-! The request kinds `space ++ we` of R91 and R107. -/
abbrev Kind.csrr : BitVec 3 := 0b000#3
abbrev Kind.csrw : BitVec 3 := 0b001#3
abbrev Kind.keyRead : BitVec 3 := 0b010#3
abbrev Kind.keyw : BitVec 3 := 0b011#3
abbrev Kind.msgRead : BitVec 3 := 0b100#3
abbrev Kind.msgw : BitVec 3 := 0b101#3
abbrev Kind.spaceRead : BitVec 3 := 0b110#3
abbrev Kind.spaceWrite : BitVec 3 := 0b111#3

/-- The command words of R93, 64 bits each. -/
def Op.word : Op → Word
  | .hash => 1#64
  | .hash24 => 2#64

/-- Why a code selects no row of the opcode table. None of these is an error of the machine: R106, R107 and R27 say
what it does on each. -/
inductive Rejection where
  /-- kind 010, a host read in space KEY (R107). -/
  | reservedKeyRead
  /-- kind 100, a host read in space MSG (R107). -/
  | reservedMsgRead
  /-- kind 110, a read in the reserved space 3 (R107). -/
  | reservedSpaceRead
  /-- kind 111, a write in the reserved space 3 (R107). -/
  | reservedSpaceWrite
  /-- A command word other than 1 and 2 (R106). -/
  | reservedCommand
  /-- PHASE = 0: no micro-operation (R27). -/
  | idlePhase
  /-- PHASE in 10..15 (R108). -/
  | reservedPhase
deriving DecidableEq, Repr

/-! ### Fields of a request (R90) -/

/-- `kind = REQ[130:128]`. -/
def reqKind (w : ReqWord) : BitVec 3 := w.extractLsb' 128 3

/-- `addr = REQ[127:64]`. -/
def reqAddr (w : ReqWord) : Word := w.extractLsb' 64 64

/-- `wdata = REQ[63:0]`. -/
def reqData (w : ReqWord) : Word := w.extractLsb' 0 64

/-- The packed word `kind ++ addr ++ wdata` (R90, R111). -/
def packReq (kind : BitVec 3) (addr wdata : Word) : ReqWord := (kind ++ addr) ++ wdata

/-! ### The decoders -/

/-- The word written to CMD: 1 is HASH, 2 is HASH24, compared on all 64 bits (R35, R93, R106). -/
def decodeCmd (w : Word) : Except Rejection Op :=
  if w = Op.hash.word then .ok .hash
  else if w = Op.hash24.word then .ok .hash24
  else .error .reservedCommand

/-- A CSRW request: the second look-up of R105 when `addr` is 0. A reserved command word stays the CSRW it is. -/
def decodeCsrw (addr wdata : Word) : Instr :=
  if addr = 0#64 then
    match decodeCmd wdata with
    | .ok op => op.instr
    | .error _ => .csrw addr wdata
  else .csrw addr wdata

/-- A packed request word (R90, R91, R107). -/
def decodeReq (w : ReqWord) : Except Rejection Instr :=
  if reqKind w = Kind.csrr then .ok (.csrr (reqAddr w))
  else if reqKind w = Kind.csrw then .ok (decodeCsrw (reqAddr w) (reqData w))
  else if reqKind w = Kind.keyw then .ok (.keyw (reqAddr w) (reqData w))
  else if reqKind w = Kind.msgw then .ok (.msgw (reqAddr w) (reqData w))
  else if reqKind w = Kind.keyRead then .error .reservedKeyRead
  else if reqKind w = Kind.msgRead then .error .reservedMsgRead
  else if reqKind w = Kind.spaceRead then .error .reservedSpaceRead
  else .error .reservedSpaceWrite

/-- PHASE (R27, R100, R108). -/
def decodeUop (p : PhaseCode) : Except Rejection Instr :=
  if p = Phase.idle then .error .idlePhase
  else if p = Phase.init then .ok .init
  else if p = Phase.ldblk then .ok .ldblk
  else if p = Phase.ldtail then .ok .ldtail
  else if p = Phase.xin then .ok .xin
  else if p = Phase.crnd then .ok .crnd
  else if p = Phase.xout then .ok .xout
  else if p = Phase.xff then .ok .xff
  else if p = Phase.frnd then .ok .frnd
  else if p = Phase.fold then .ok .fold
  else .error .reservedPhase

/-- What is decoded: a request at the port, or the phase code (R105). -/
inductive Code where
  | req (w : ReqWord)
  | uop (p : PhaseCode)
deriving DecidableEq, Repr

/-- The decoder, total on every request word and every phase code. -/
def decode : Code → Except Rejection Instr
  | .req w => decodeReq w
  | .uop p => decodeUop p

/-! ### The encoder -/

/-- The code of an instruction: a request word as R111 packs it (a command is the CSRW to CMD that carries its word,
R35; a read carries `wdata` 0), or a phase code. -/
def encode : Instr → Code
  | .csrr addr => .req (packReq Kind.csrr addr 0#64)
  | .csrw addr wdata => .req (packReq Kind.csrw addr wdata)
  | .keyw addr wdata => .req (packReq Kind.keyw addr wdata)
  | .msgw addr wdata => .req (packReq Kind.msgw addr wdata)
  | .hash => .req (packReq Kind.csrw 0#64 Op.hash.word)
  | .hash24 => .req (packReq Kind.csrw 0#64 Op.hash24.word)
  | .init => .uop Phase.init
  | .ldblk => .uop Phase.ldblk
  | .ldtail => .uop Phase.ldtail
  | .xin => .uop Phase.xin
  | .crnd => .uop Phase.crnd
  | .xout => .uop Phase.xout
  | .xff => .uop Phase.xff
  | .frnd => .uop Phase.frnd
  | .fold => .uop Phase.fold

/-! ### The opcode table's numbering of the bits -/

/-- The code whose bits are `w` as spec/opcode_table.json numbers them (assumption 7). A row of at most one byte is a
UOP row: bits 3:0 are the phase code, the byte's other bits 0. A row of at most 64 bits is a CMD row: the word written
to CMD. A wider row is a REQ row: the table's match and mask stand on the 3-bit kind as bits 2:0, and the operand words
`addr` and `wdata` count on from it. -/
def tableCode (nbits w : Nat) : Option Code :=
  if nbits ≤ 8 then if w < 16 then some (.uop (BitVec.ofNat 4 w)) else none
  else if nbits ≤ 64 then some (.req (packReq Kind.csrw 0#64 (BitVec.ofNat 64 w)))
  else some (.req (packReq (BitVec.ofNat 3 w) (BitVec.ofNat 64 (w / 2 ^ 3)) (BitVec.ofNat 64 (w / 2 ^ 67))))

/-- The instruction the decoder reads from a word of the opcode table. -/
def decodeTableWord (nbits w : Nat) : Option Instr :=
  match tableCode nbits w with
  | none => none
  | some c =>
    match decode c with
    | .ok i => some i
    | .error _ => none

end Sys2Proof
end

