-- ==== Sys2Proof/Config.lean ====
section
/-! DEFINITION. What the spec leaves open: the free values, and the capacity the machine is given after reset. -/

namespace Sys2Proof

/-- The free value of U1 (spec/93_implementation_defined.md): `freeByte n` is the n-th draw, what an engine read of a
buffer byte that no host write has set since the last reset returns. It has no body, so nothing can evaluate it.
Assumption 2. -/
opaque Config.freeByte : Nat → Byte

/-- The load `next_load(o)` selects where `o > MSG_LEN`, of which R29 does not speak: LDBLK or LDTAIL, a free value of
MSG_LEN and `o`. Assumption 9. -/
opaque Config.freeLoad : Word → Word → Bool

/-- The tail word of LDTAIL where MSG_LEN - OFF is not in 0 to 7, of which R160 does not speak: a free value of OFF and
MSG_LEN. Assumption 9. -/
opaque Config.freeTail : Word → Word → Word

/-- The MSG_CAP of `State.reset`. DESIGN CHOICE (assumption 1): the spec leaves MSG_CAP open (R8, D8, U8); 64 is the
capacity most vectors of spec/95_test_vectors.md name. No statement rests on it: MSG_CAP is a field of State. -/
def Config.resetMsgCap : Word := 64

end Sys2Proof
end

