-- ==== Sys2Proof/Machine/State.lean ====
section
/-! DEFINITION. The whole state (spec/10_state.md R20) as plain data, the fault and refusal reasons, and the state after reset (R49). -/

namespace Sys2Proof.Machine

open Sys2Proof

/-- A step of the world outside the engine's own program (spec/00_scope.md R5, R6): a request on the port, a turn of
the engine, or reset. -/
inductive Event where
  /-- The host issues the packed request `w` (spec/30_encoding.md R90). -/
  | request (w : ReqWord)
  /-- The schedule gives this step to the engine. -/
  | engine
  /-- The reset input (spec/70_reset_and_hazards.md R240). -/
  | reset
deriving DecidableEq, Repr

/-- A buffer: the bytes written since reset, as (address, byte) pairs with strictly rising addresses. A byte that is
not listed has not been written and reads as a free value (U1), so no listed byte equals what an unlisted one reads
as by rule, and the strictly rising list is the one form of a buffer. -/
abbrev Buffer := List Host.Cell

/-- The state. The fields down to `msg` are R20's, with R20's widths; the last four are the model's own. -/
structure State where
  /-- State word `v0` (R21). -/
  v0 : Word
  /-- State word `v1` (R21). -/
  v1 : Word
  /-- State word `v2` (R21). -/
  v2 : Word
  /-- State word `v3` (R21). -/
  v3 : Word
  /-- `M`, the block word (R23). -/
  m : Word
  /-- `PHASE`, the engine's program counter (R27). -/
  phase : PhaseCode
  /-- `OFF`, the byte offset in the message (R28). -/
  off : Word
  /-- `RC`, rounds already applied (R30). -/
  rc : Word
  /-- `CR`, compression rounds in effect (R31). -/
  cr : Word
  /-- `DR`, finalisation rounds in effect (R31). -/
  dr : Word
  /-- `LAST`, `m` holds the tail block (R32). -/
  last : Bool
  /-- `DONE`, STATUS[1] (R33). -/
  done : Bool
  /-- `ERROR`, STATUS[2] (R33). -/
  error : Bool
  /-- `ERR`, the error code (R37). -/
  err : BitVec 8
  /-- `RESULT` (R42). -/
  result : Word
  /-- `KEY_LEN` (R38). -/
  keyLen : Word
  /-- `MSG_LEN` (R39). -/
  msgLen : Word
  /-- CSR `C` (R40). -/
  c : Word
  /-- CSR `D` (R41). -/
  d : Word
  /-- `KEY[0..15]` (R45). -/
  key : Buffer
  /-- `MSG[0..MSG_CAP-1]` (R46). -/
  msg : Buffer
  /-- The parameter MSG_CAP (R8, U8), which no step writes (assumption 1). -/
  msgCap : Word
  /-- The index of the next free byte (U1, assumption 2). -/
  draws : Nat
  /-- The events to come, oldest first (assumption 3). -/
  port : List Event
  /-- The response of the last request, none for a write (R90, assumption 4). -/
  rdata : Option Word
deriving DecidableEq, Repr

/-- Why the machine stops. -/
inductive Fault where
  /-- Raised by the engine's turn (`engineTurn`) when PHASE holds a reserved code, 10 to 15: the spec gives such a state
  no engine step (R27, R108; U4 `stuck`). No instruction raises it. Safe: the machine stops. Assumption 6. -/
  | reservedPhase
deriving DecidableEq, Repr

/-- Why the model gives no meaning. -/
inductive Refusal where
  /-- Raised by an arm of `exec` for an instruction without a meaning; no arm does. Safe: the machine stops. -/
  | notModelled (mnemonic : String)
deriving DecidableEq, Repr

/-- The state after reset for a given MSG_CAP (R49): every register 0, no buffer byte written. -/
def State.resetWith (msgCap : Word) : State where
  v0 := 0#64
  v1 := 0#64
  v2 := 0#64
  v3 := 0#64
  m := 0#64
  phase := 0#4
  off := 0#64
  rc := 0#64
  cr := 0#64
  dr := 0#64
  last := false
  done := false
  error := false
  err := 0#8
  result := 0#64
  keyLen := 0#64
  msgLen := 0#64
  c := 0#64
  d := 0#64
  key := []
  msg := []
  msgCap := msgCap
  draws := 0
  port := []
  rdata := none

/-- The machine right after reset (R49), with the capacity of assumption 1. -/
def State.reset : State := State.resetWith Config.resetMsgCap

end Sys2Proof.Machine
end

