-- ==== Sys2Proof/Machine/Ops.lean ====
section
/-! DEFINITION. The shared operations: the buffers, the Word Codec (spec/40_word_codec.md), rotation, taking an error, reset as an
event, and the port. -/

namespace Sys2Proof.Machine

open Sys2Proof

/-! ### Arithmetic -/

/-- `rotl64(a, n)` for 1 <= n <= 63 (R10, R127): the bits that leave at bit 63 re-enter at bit 0. -/
def rotl64 (a : Word) (n : Nat) : Word := (a <<< n) ||| (a >>> (64 - n))

/-- `zext_64` of a byte (R11). -/
def zextByte (b : Byte) : Word := b.setWidth 64

/-- `v[7:0]` (R9). -/
def lowByte (w : Word) : Byte := w.setWidth 8

/-! ### Buffers (spec/20_memory.md) -/

/-- The byte a host write has set at address `a` since reset, if there is one. -/
def Buffer.read? : Buffer → Nat → Option Byte
  | [], _ => none
  | (x, v) :: rest, a => if x = a then some v else Buffer.read? rest a

/-- One byte written, the addresses kept strictly rising. -/
def Buffer.write : Buffer → Nat → Byte → Buffer
  | [], a, v => [(a, v)]
  | (x, u) :: rest, a, v =>
    if a < x then (a, v) :: (x, u) :: rest
    else if a = x then (a, v) :: rest
    else (x, u) :: Buffer.write rest a v

/-- Addresses strictly rising, all of them above `lo` where one is given. -/
def Buffer.risingFrom : Option Nat → Buffer → Bool
  | _, [] => true
  | none, (x, _) :: rest => Buffer.risingFrom (some x) rest
  | some lo, (x, _) :: rest => decide (lo < x) && Buffer.risingFrom (some x) rest

/-- The canonical form of a buffer. -/
def Buffer.wf (b : Buffer) : Bool := Buffer.risingFrom none b

/-- Every listed address lies below `n`. -/
def Buffer.below (n : Nat) (b : Buffer) : Bool := b.all fun cell => decide (cell.1 < n)

/-- What an unlisted address reads as: the `draw`-th free byte (U1, assumption 2). -/
def unlistedByte (draw : Nat) : Byte := Config.freeByte draw

/-- One byte as the engine reads it. -/
def Buffer.readByte (b : Buffer) (a draw : Nat) : Byte := (b.read? a).getD (unlistedByte draw)

/-- The two byte spaces the engine reads (R60). -/
inductive Space where
  | key
  | msg
deriving DecidableEq, Repr

/-- Capacity in bytes: 16 for KEY, MSG_CAP for MSG (R121). -/
def State.capacity (s : State) : Space → Nat
  | .key => 16
  | .msg => s.msgCap.toNat

/-- The buffer behind a space. -/
def State.buffer (s : State) : Space → Buffer
  | .key => s.key
  | .msg => s.msg

/-- The buffer behind a space, replaced. -/
def State.setBuffer (s : State) (sp : Space) (b : Buffer) : State :=
  match sp with
  | .key => { s with key := b }
  | .msg => { s with msg := b }

/-! ### The Word Codec (spec/40_word_codec.md) -/

/-- The loop of R121: the bytes `f 0`, `f 1`, ..., `f (n-1)`, least significant first, or-ed into one word. -/
def leWord (f : Nat → Byte) : Nat → Word
  | 0 => 0#64
  | n + 1 => leWord f n ||| (zextByte (f n) <<< (8 * n))

/-! ### Errors (spec/60_exceptions.md) -/

/-- The three error kinds (R210). -/
inductive ErrorKind where
  | invalidKeyLength
  | invalidRoundCount
  | internalExtractionFailure
deriving DecidableEq, Repr

/-- The code in ERR (R37, R210). -/
def ErrorKind.code : ErrorKind → BitVec 8
  | .invalidKeyLength => 1#8
  | .invalidRoundCount => 2#8
  | .internalExtractionFailure => 3#8

/-- Taking an error (R216): ERROR <- 1, ERR <- code, PHASE <- IDLE, nothing saved and nothing else. There is no
return (R218): the next accepted command clears it. -/
def State.errorEntry (s : State) (e : ErrorKind) : State :=
  { s with error := true, err := e.code, phase := Phase.idle }

/-- The n draws that a read of n bytes uses up (U1, assumption 2). -/
def State.advanceDraws (s : State) (n : Nat) : State := { s with draws := s.draws + n }

/-- `MemRead(S, a, n)` (R121): the bound is tested on natural numbers before any byte is read; then the n bytes are
assembled little-endian (R62). Byte i uses the draw `draws + i` if no host write has set it. -/
def State.memRead (s : State) (sp : Space) (a n : Nat) : Except ErrorKind (Word × State) :=
  if s.capacity sp < a + n then .error .internalExtractionFailure
  else .ok (leWord (fun i => (s.buffer sp).readByte (a + i) (s.draws + i)) n, s.advanceDraws n)

/-! ### BUSY and the host's byte write -/

/-- `BUSY` is `PHASE != IDLE` (R33). -/
def State.busy (s : State) : Bool := s.phase != Phase.idle

/-- `MemWrite(S, addr, 1, wdata)` (R66): dropped while BUSY or outside the space; else byte `addr` takes `wdata[7:0]`. -/
def State.memWrite (s : State) (sp : Space) (addr wdata : Word) : State :=
  if s.busy then s
  else if addr.toNat < s.capacity sp then
    s.setBuffer sp ((s.buffer sp).write addr.toNat (lowByte wdata))
  else s

/-! ### Reset and the port -/

/-- The reset event (R240): every register takes its value of R49 and every buffer byte becomes unspecified. The
parameter, the draws, the events to come and the last response are not the engine's registers (assumption 10). -/
def State.resetEvent (s : State) : State :=
  { State.resetWith s.msgCap with draws := s.draws, port := s.port, rdata := s.rdata }

/-- `rdata <- v` (R90). -/
def State.respond (s : State) (v : Word) : State := { s with rdata := some v }

/-- The events to come, replaced. -/
def State.setPort (s : State) (p : List Event) : State := { s with port := p }

/-- The port takes the next request off the list; a response is given only by a read (R90). -/
def State.takeRequest (s : State) (p : List Event) : State := { s with port := p, rdata := none }

/-- A reserved request (R107): a read answers 0, a write is dropped. -/
def State.reservedRequest (s : State) : Rejection → State
  | .reservedKeyRead => s.respond 0#64
  | .reservedMsgRead => s.respond 0#64
  | .reservedSpaceRead => s.respond 0#64
  | .reservedSpaceWrite => s
  | .reservedCommand => s
  | .idlePhase => s
  | .reservedPhase => s

end Sys2Proof.Machine
end

