-- ==== Sys2Proof/Machine/Flags.lean ====
section
/-! DEFINITION. The status flags (spec/10_state.md R33, R36). There are no arithmetic flags. -/

namespace Sys2Proof.Machine

open Sys2Proof

/-- One flag as a 64-bit word. -/
def flagWord (b : Bool) : Word := if b then 1#64 else 0#64

/-- `STATUS` (R36, R190): `(PHASE << 4) or (ERROR << 2) or (DONE << 1) or BUSY`, all other bits 0. -/
def State.statusWord (s : State) : Word :=
  (s.phase.setWidth 64 <<< 4) ||| (flagWord s.error <<< 2) ||| (flagWord s.done <<< 1) ||| flagWord s.busy

/-- What acceptance of a command clears (R184): RESULT, DONE, ERROR, ERR. -/
def State.clearOutcome (s : State) : State := { s with result := 0#64, done := false, error := false, err := 0#8 }

end Sys2Proof.Machine
end

