-- ==== Sys2Proof/Machine/Operands.lean ====
section
/-! DEFINITION. The operand forms: the CSR a request names (spec/10_state.md R34), the four state words as one operand (R21), and
the data-dependent successor `next_load` (R29). -/

namespace Sys2Proof.Machine

open Sys2Proof

/-! The CSR numbers (R34). -/
abbrev Csr.cmd : Word := 0#64
abbrev Csr.status : Word := 1#64
abbrev Csr.err : Word := 2#64
abbrev Csr.keyLen : Word := 3#64
abbrev Csr.msgLen : Word := 4#64
abbrev Csr.c : Word := 5#64
abbrev Csr.d : Word := 6#64
abbrev Csr.result : Word := 7#64
abbrev Csr.cap : Word := 8#64

/-- The value CSRR reads (R190); the number is compared on all 64 bits (R92), CMD and every number above 8 read 0. -/
def State.csrRead (s : State) (addr : Word) : Word :=
  if addr = Csr.cmd then 0#64
  else if addr = Csr.status then s.statusWord
  else if addr = Csr.err then s.err.setWidth 64
  else if addr = Csr.keyLen then s.keyLen
  else if addr = Csr.msgLen then s.msgLen
  else if addr = Csr.c then s.c
  else if addr = Csr.d then s.d
  else if addr = Csr.result then s.result
  else if addr = Csr.cap then s.msgCap
  else 0#64

/-- A write to a configuration CSR (R191); every other number but CMD drops the write. -/
def State.configWrite (s : State) (addr wdata : Word) : State :=
  if addr = Csr.keyLen then { s with keyLen := wdata }
  else if addr = Csr.msgLen then { s with msgLen := wdata }
  else if addr = Csr.c then { s with c := wdata }
  else if addr = Csr.d then { s with d := wdata }
  else s

/-- The four state words (R21). -/
structure Words where
  v0 : Word
  v1 : Word
  v2 : Word
  v3 : Word
deriving DecidableEq, Repr

/-- `(x[0], x[1], x[2], x[3])`. -/
def State.words (s : State) : Words := { v0 := s.v0, v1 := s.v1, v2 := s.v2, v3 := s.v3 }

/-- `(x[0], x[1], x[2], x[3]) <- w`. -/
def State.setWords (s : State) (w : Words) : State := { s with v0 := w.v0, v1 := w.v1, v2 := w.v2, v3 := w.v3 }

/-- `next_load(o)` (R29), for o <= MSG_LEN: LDBLK when `MSG_LEN - o >= 8` on natural numbers, else LDTAIL. For o > MSG_LEN,
which no run reaches (R28), one of the two, left free (assumption 9). -/
def State.nextLoad (s : State) (o : Word) : PhaseCode :=
  if o.toNat ≤ s.msgLen.toNat then
    if 8 ≤ s.msgLen.toNat - o.toNat then Phase.ldblk else Phase.ldtail
  else if Config.freeLoad s.msgLen o then Phase.ldblk else Phase.ldtail

end Sys2Proof.Machine
end

