-- ==== Sys2Proof/Machine/Compressor.lean ====
section
/-! DEFINITION. The Compressor: INIT, LDBLK, XIN, XOUT (spec/42_compressor.md). -/

namespace Sys2Proof.Machine

open Sys2Proof

/-! The initialisation constants (R7, R104). -/
def initConst0 : Word := 0x736f6d6570736575#64
def initConst1 : Word := 0x646f72616e646f6d#64
def initConst2 : Word := 0x6c7967656e657261#64
def initConst3 : Word := 0x7465646279746573#64

/-- The state words INIT writes from the key words (R140). -/
def initWords (k0 k1 : Word) : Words :=
  { v0 := k0 ^^^ initConst0, v1 := k1 ^^^ initConst1, v2 := k0 ^^^ initConst2, v3 := k1 ^^^ initConst3 }

/-- INIT (R140). The two key reads lie inside the 16-byte buffer, so neither raises (R122). -/
def execInit (s : State) : Host.Outcome State Fault Refusal :=
  match s.memRead .key 0 8 with
  | .error e => .next (s.errorEntry e)
  | .ok (k0, s1) =>
    match s1.memRead .key 8 8 with
    | .error e => .next (s1.errorEntry e)
    | .ok (k1, s2) =>
      .next { s2.setWords (initWords k0 k1) with
        m := 0#64
        off := 0#64
        rc := 0#64
        last := false
        phase := s.nextLoad 0#64 }

/-- LDBLK (R142). A read past MSG_CAP raises before any write of this micro-operation. -/
def execLdblk (s : State) : Host.Outcome State Fault Refusal :=
  match s.memRead .msg s.off.toNat 8 with
  | .error e => .next (s.errorEntry e)
  | .ok (w, s1) => .next { s1 with m := w, last := false, phase := Phase.xin }

/-- XIN (R143). -/
def execXin (s : State) : Host.Outcome State Fault Refusal :=
  .next { s with v3 := s.v3 ^^^ s.m, rc := 0#64, phase := Phase.crnd }

/-- XOUT (R145): fold the block back in; after a full block on to the next load, after the tail block on to XFF. -/
def execXout (s : State) : Host.Outcome State Fault Refusal :=
  if s.last then .next { s with v0 := s.v0 ^^^ s.m, phase := Phase.xff }
  else .next { s with v0 := s.v0 ^^^ s.m, off := s.off + 8#64, phase := s.nextLoad (s.off + 8#64) }

end Sys2Proof.Machine
end

