-- ==== Sys2Proof/Machine/Finalizer.lean ====
section
/-! DEFINITION. The Finalizer: LDTAIL, XFF, FOLD (spec/43_finalizer.md). -/

namespace Sys2Proof.Machine

open Sys2Proof

/-- The length tag `(MSG_LEN mod 256) << 56` (R160, R161). -/
def lengthTag (len : Word) : Word := BitVec.ofNat 64 (len.toNat % 256) <<< 56

/-- The finalisation constant (R7, R104). -/
def finalConst : Word := 0xff#64

/-- The tail read of LDTAIL (R160): `MemRead(MSG, OFF, n)` with n = MSG_LEN - OFF in 0 to 7. For another n, which no run
reaches (R50 item 5), the word is left free and the raise is the one R160 names, MSG_LEN > MSG_CAP (assumption 9). -/
def State.tailRead (s : State) : Except ErrorKind (Word × State) :=
  if s.off.toNat ≤ s.msgLen.toNat ∧ s.msgLen.toNat - s.off.toNat ≤ 7 then
    s.memRead .msg s.off.toNat (s.msgLen.toNat - s.off.toNat)
  else if s.msgCap.toNat < s.msgLen.toNat then .error .internalExtractionFailure
  else .ok (Config.freeTail s.off s.msgLen, s)

/-- LDTAIL (R160): the tail bytes below the length tag. A read past MSG_CAP raises before any write of this
micro-operation. -/
def execLdtail (s : State) : Host.Outcome State Fault Refusal :=
  match s.tailRead with
  | .error e => .next (s.errorEntry e)
  | .ok (t, s1) => .next { s1 with m := lengthTag s.msgLen ||| t, last := true, phase := Phase.xin }

/-- XFF (R164). -/
def execXff (s : State) : Host.Outcome State Fault Refusal :=
  .next { s with v2 := s.v2 ^^^ finalConst, rc := 0#64, phase := Phase.frnd }

/-- FOLD (R166). -/
def execFold (s : State) : Host.Outcome State Fault Refusal :=
  .next { s with result := s.v0 ^^^ s.v1 ^^^ s.v2 ^^^ s.v3, done := true, phase := Phase.idle }

end Sys2Proof.Machine
end

