-- ==== Sys2Proof/Machine/MixingRound.lean ====
section
/-! DEFINITION. The Mixing Round and the micro-operations CRND and FRND (spec/41_mixing_round.md). -/

namespace Sys2Proof.Machine

open Sys2Proof

/-- `SipRound` (R130): the fourteen assignments in reading order. -/
def sipRound (w : Words) : Words :=
  let v0 := w.v0
  let v1 := w.v1
  let v2 := w.v2
  let v3 := w.v3
  let v0 := v0 + v1
  let v1 := rotl64 v1 13
  let v1 := v1 ^^^ v0
  let v0 := rotl64 v0 32
  let v2 := v2 + v3
  let v3 := rotl64 v3 16
  let v3 := v3 ^^^ v2
  let v2 := v2 + v1
  let v1 := rotl64 v1 17
  let v1 := v1 ^^^ v2
  let v2 := rotl64 v2 32
  let v0 := v0 + v3
  let v3 := rotl64 v3 21
  let v3 := v3 ^^^ v0
  { v0 := v0, v1 := v1, v2 := v2, v3 := v3 }

/-- CRND (R133): one compression round; the step that makes RC equal to CR goes on to XOUT. -/
def execCrnd (s : State) : Host.Outcome State Fault Refusal :=
  .next { s.setWords (sipRound s.words) with
    rc := s.rc + 1#64
    phase := if s.rc + 1#64 = s.cr then Phase.xout else Phase.crnd }

/-- FRND (R134): one finalisation round; the step that makes RC equal to DR goes on to FOLD. -/
def execFrnd (s : State) : Host.Outcome State Fault Refusal :=
  .next { s.setWords (sipRound s.words) with
    rc := s.rc + 1#64
    phase := if s.rc + 1#64 = s.dr then Phase.fold else Phase.frnd }

end Sys2Proof.Machine
end

