-- ==== Sys2Proof/Machine/Commands.lean ====
section
/-! DEFINITION. Command acceptance and the commands HASH and HASH24 (spec/44_commands.md). -/

namespace Sys2Proof.Machine

open Sys2Proof

/-- The compression round count in effect (R184): CSR C for HASH, 2 for HASH24. -/
def State.countC (s : State) : Op → Word
  | .hash => s.c
  | .hash24 => 2#64

/-- The finalisation round count in effect (R184): CSR D for HASH, 4 for HASH24. -/
def State.countD (s : State) : Op → Word
  | .hash => s.d
  | .hash24 => 4#64

/-- `accept(op)` (R184): clear the outcome, then validate the key length, then the round counts, then start the run. -/
def State.accept (s : State) (op : Op) : State :=
  if s.keyLen ≠ 16#64 then s.clearOutcome.errorEntry .invalidKeyLength
  else if s.countC op = 0#64 ∨ s.countD op = 0#64 then s.clearOutcome.errorEntry .invalidRoundCount
  else { s.clearOutcome with cr := s.countC op, dr := s.countD op, phase := Phase.init }

/-- HASH (R185): accepted only when PHASE is IDLE, else dropped (R191). -/
def execHash (s : State) : Host.Outcome State Fault Refusal :=
  .next (if s.busy then s else s.accept .hash)

/-- HASH24 (R186): accepted only when PHASE is IDLE, else dropped (R191). -/
def execHash24 (s : State) : Host.Outcome State Fault Refusal :=
  .next (if s.busy then s else s.accept .hash24)

end Sys2Proof.Machine
end

