-- ==== Sys2Proof/Machine/Requests.lean ====
section
/-! DEFINITION. The host requests CSRR, CSRW, KEYW, MSGW (spec/44_commands.md). -/

namespace Sys2Proof.Machine

open Sys2Proof

/-- CSRR (R190): never blocked, changes no state but the response. -/
def execCsrr (addr : Word) (s : State) : Host.Outcome State Fault Refusal :=
  .next (s.respond (s.csrRead addr))

/-- CSRW (R191): dropped while busy; a write of a command word to CMD accepts the command, any other word written to
CMD is dropped (R106). -/
def execCsrw (addr wdata : Word) (s : State) : Host.Outcome State Fault Refusal :=
  if s.busy then .next s
  else if addr = Csr.cmd then
    match decodeCmd wdata with
    | .ok op => .next (s.accept op)
    | .error _ => .next s
  else .next (s.configWrite addr wdata)

/-- KEYW (R192). -/
def execKeyw (addr wdata : Word) (s : State) : Host.Outcome State Fault Refusal :=
  .next (s.memWrite .key addr wdata)

/-- MSGW (R193). -/
def execMsgw (addr wdata : Word) (s : State) : Host.Outcome State Fault Refusal :=
  .next (s.memWrite .msg addr wdata)

end Sys2Proof.Machine
end

