-- ==== Sys2Proof/Machine/Dispatch.lean ====
section
/-! DEFINITION. One arm per row of spec/opcode_table.json. -/

namespace Sys2Proof.Machine

open Sys2Proof

def exec (i : Instr) (s : State) : Host.Outcome State Fault Refusal :=
  match i with
  | .csrr addr => Sys2Proof.Machine.execCsrr addr s
  | .csrw addr wdata => Sys2Proof.Machine.execCsrw addr wdata s
  | .keyw addr wdata => Sys2Proof.Machine.execKeyw addr wdata s
  | .msgw addr wdata => Sys2Proof.Machine.execMsgw addr wdata s
  | .hash => Sys2Proof.Machine.execHash s
  | .hash24 => Sys2Proof.Machine.execHash24 s
  | .init => Sys2Proof.Machine.execInit s
  | .ldblk => Sys2Proof.Machine.execLdblk s
  | .ldtail => Sys2Proof.Machine.execLdtail s
  | .xin => Sys2Proof.Machine.execXin s
  | .crnd => Sys2Proof.Machine.execCrnd s
  | .xout => Sys2Proof.Machine.execXout s
  | .xff => Sys2Proof.Machine.execXff s
  | .frnd => Sys2Proof.Machine.execFrnd s
  | .fold => Sys2Proof.Machine.execFold s

end Sys2Proof.Machine
end

