-- ==== Sys2Proof/Machine/Agents.lean ====
section
/-! DEFINITION. What each agent does in its step (spec/00_scope.md R5, R6): the port serves a request, the engine executes the
micro-operation PHASE selects. -/

namespace Sys2Proof.Machine

open Sys2Proof

/-- The port serves one request (R91, R105): a decoded request runs, a reserved one has the effect of R107. -/
def serveRequest (w : ReqWord) (s : State) : Host.Outcome State Fault Refusal :=
  match decode (.req w) with
  | .ok i => exec i s
  | .error r => .next (s.reservedRequest r)

/-- The engine's turn (R27): the micro-operation PHASE selects. In IDLE the engine has no step and the machine waits
(assumption 5); a reserved code has no engine step (R108, assumption 6). -/
def engineTurn (s : State) : Host.Outcome State Fault Refusal :=
  match decode (.uop s.phase) with
  | .ok i => exec i s
  | .error .idlePhase => .next s
  | .error _ => .fault .reservedPhase

/-- The next event of the port, or the engine's turn when none is pending (R5, R6, assumption 3). -/
def nextEvent (s : State) : Host.Outcome State Fault Refusal :=
  match s.port with
  | [] => engineTurn s
  | .engine :: rest => engineTurn (s.setPort rest)
  | .request w :: rest => serveRequest w (s.takeRequest rest)
  | .reset :: rest => .next (s.setPort rest).resetEvent

/-- The state in which the next step runs the given code: a request stands first at the port, a phase code stands in
PHASE with the engine's turn first (assumption 7). -/
def State.withCode (s : State) : Code → State
  | .req w => { s with port := .request w :: s.port }
  | .uop p => { s with phase := p, port := .engine :: s.port }

end Sys2Proof.Machine
end

