-- ==== Sys2Proof/Machine/Step.lean ====
section
/-! DEFINITION. The step, and where a program comes from. -/

namespace Sys2Proof.Machine

open Sys2Proof

/-- One step of the machine (spec/00_scope.md R6). -/
def step (s : State) : Host.Outcome State Fault Refusal := nextEvent s

/-- The instruction of an opcode-table row placed so that the next step runs it (assumption 7). -/
def State.withFetchWord (s : State) (nbits w : Nat) : State :=
  match tableCode nbits w with
  | some code => s.withCode code
  | none => s

/-- `n` steps, stopping at the first fault or refusal. -/
def run : Nat → State → Host.Outcome State Fault Refusal
  | 0, s => .next s
  | n + 1, s =>
    match step s with
    | .next t => run n t
    | .fault r => .fault r
    | .refused r => .refused r

end Sys2Proof.Machine
end

