-- ==== Sys2Proof/Machine/Function.lean ====
section
/-! DEFINITION. The function the engine computes, as the spec gives it without registers (spec/42_compressor.md R146, R147,
spec/43_finalizer.md R168, R170, spec/44_commands.md R185). -/

namespace Sys2Proof.Machine

open Sys2Proof

/-- `read_u64_le(b, o, n)` (R120). -/
def readU64le (b : Nat → Byte) (o n : Nat) : Word := leWord (fun i => b (o + i)) n

/-- `SipRound` repeated n times. -/
def sipRounds : Nat → Words → Words
  | 0, v => v
  | n + 1, v => sipRounds n (sipRound v)

/-- `compress(v, m, c)` (R146). -/
def compress (v : Words) (m : Word) (c : Nat) : Words :=
  let v := sipRounds c { v with v3 := v.v3 ^^^ m }
  { v with v0 := v.v0 ^^^ m }

/-- The state after the first `n` full blocks (R147), blocks in message order. -/
def absorbBlocks (k0 k1 : Word) (b : Nat → Byte) (c : Nat) : Nat → Words
  | 0 => initWords k0 k1
  | n + 1 => compress (absorbBlocks k0 k1 b c n) (readU64le b (8 * n) 8) c

/-- `absorb(k0, k1, b, len, c)` (R147): every full block. -/
def absorb (k0 k1 : Word) (b : Nat → Byte) (len c : Nat) : Words := absorbBlocks k0 k1 b c (len / 8)

/-- The tail block of R168: the length tag over the last `len mod 8` bytes. -/
def tailBlock (b : Nat → Byte) (len : Nat) : Word :=
  (BitVec.ofNat 64 (len % 256) <<< 56) ||| readU64le b (len - len % 8) (len % 8)

/-- `finalize(v, b, len, c, d)` (R168). -/
def finalize (v : Words) (b : Nat → Byte) (len c d : Nat) : Word :=
  let v := compress v (tailBlock b len) c
  let v := sipRounds d { v with v2 := v.v2 ^^^ finalConst }
  v.v0 ^^^ v.v1 ^^^ v.v2 ^^^ v.v3

/-- `siphash_core(k, b, len, c, d)` (R170). -/
def siphashCore (k b : Nat → Byte) (len c d : Nat) : Word :=
  finalize (absorb (readU64le k 0 8) (readU64le k 8 8) b len c) b len c d

end Sys2Proof.Machine
end

