-- ==== Sys2Proof/Safety.lean ====
section
/-! DEFINITION. What the claims speak of: reachable states, the invariants of spec/10_state.md R50, the canonical form of the
buffers, and what a host can see. -/

namespace Sys2Proof.Machine

open Sys2Proof

/-- The states requests, engine steps and resets lead to (R50), for every MSG_CAP, every free byte and every schedule:
the world may choose the events to come afresh at any point (U10). -/
inductive Reachable : State → Prop
  | reset (msgCap : Word) (draws : Nat) (port : List Event) :
      Reachable { State.resetWith msgCap with draws := draws, port := port }
  | schedule (s : State) (port : List Event) : Reachable s → Reachable { s with port := port }
  | step (s t : State) : Reachable s → Machine.step s = .next t → Reachable t

/-- Items 1 to 7 of R50. -/
structure RuleR50 (s : State) : Prop where
  /-- Item 1. -/
  phaseLegal : s.phase.toNat ≤ 9
  /-- Item 2. -/
  offAligned : s.off.toNat % 8 = 0
  /-- Item 2. -/
  offInside : s.phase ≠ Phase.idle → s.phase ≠ Phase.init → s.off.toNat ≤ s.msgLen.toNat
  /-- Item 3. -/
  countsPositive : s.phase ≠ Phase.idle → 1 ≤ s.cr.toNat ∧ 1 ≤ s.dr.toNat
  /-- Item 4. -/
  crndCount : s.phase = Phase.crnd → s.rc.toNat < s.cr.toNat
  /-- Item 4. -/
  frndCount : s.phase = Phase.frnd → s.rc.toNat < s.dr.toNat
  /-- Item 5. -/
  tailShort : s.phase = Phase.ldtail → s.msgLen.toNat - s.off.toNat ≤ 7
  /-- Item 5. -/
  blockFits : s.phase = Phase.ldblk → 8 ≤ s.msgLen.toNat - s.off.toNat
  /-- Item 6. -/
  lastSet : s.phase = Phase.xff ∨ s.phase = Phase.frnd ∨ s.phase = Phase.fold → s.last = true
  /-- Item 7: at most one of BUSY, DONE, ERROR. -/
  oneFlag : (s.busy = true → s.done = false ∧ s.error = false) ∧ (s.done = true → s.error = false)
  /-- Item 7. -/
  errIffError : s.err ≠ 0#8 ↔ s.error = true
  /-- Item 7. -/
  resultZero : s.done = false → s.result = 0#64

/-- The invariant every step keeps: R50, and what its items rest on. -/
structure Inv (s : State) : Prop extends RuleR50 s where
  /-- A full block held in M still lies inside the message, so that XOUT's `OFF + 8` does (R28). -/
  blockHeld : s.phase = Phase.xin ∨ s.phase = Phase.crnd ∨ s.phase = Phase.xout → s.last = false →
    8 ≤ s.msgLen.toNat - s.off.toNat
  /-- A run starts only after the key length was found to be 16 and the lock keeps it (R184, R250). -/
  keyLenChecked : s.phase ≠ Phase.idle → s.keyLen = 16#64
  /-- Only the codes 0 to 3 are ever written (R37, U5). -/
  errLegal : s.err.toNat ≤ 3

/-- The buffers are in canonical form and hold no byte outside their space (R60, R66). -/
structure BuffersWf (s : State) : Prop where
  keyRising : s.key.wf = true
  msgRising : s.msg.wf = true
  keyInside : s.key.below 16 = true
  msgInside : s.msg.below s.msgCap.toNat = true

/-- Two states that no one request tells apart, with the same events to come (R25): they may differ in v0..v3, M, OFF,
RC, CR, DR, LAST, KEY[ ], MSG[ ] and the draws. -/
structure SameForHost (s t : State) : Prop where
  phase : s.phase = t.phase
  done : s.done = t.done
  error : s.error = t.error
  err : s.err = t.err
  result : s.result = t.result
  keyLen : s.keyLen = t.keyLen
  msgLen : s.msgLen = t.msgLen
  c : s.c = t.c
  d : s.d = t.d
  msgCap : s.msgCap = t.msgCap
  port : s.port = t.port
  rdata : s.rdata = t.rdata

/-- Two states that agree on everything the order of micro-operations may depend on (R256): they may differ in every
key byte, message byte, state word, M and RESULT. -/
structure SameControl (s t : State) : Prop where
  phase : s.phase = t.phase
  off : s.off = t.off
  rc : s.rc = t.rc
  cr : s.cr = t.cr
  dr : s.dr = t.dr
  last : s.last = t.last
  msgLen : s.msgLen = t.msgLen
  msgCap : s.msgCap = t.msgCap

/-- The number of engine steps of a run that ends with DONE (spec/70_reset_and_hazards.md R255). -/
def doneSteps (len c d : Nat) : Nat := (len / 8 + 1) * (c + 3) + d + 3

/-- The number of engine steps of a run that ends with InternalExtractionFailure (R255). -/
def failSteps (cap c : Nat) : Nat := 1 + cap / 8 * (c + 3) + 1

/-- How many of the events are turns of the engine. -/
def engineTurns (evs : List Event) : Nat := evs.countP fun e => e == Event.engine

end Sys2Proof.Machine
end

