-- ==== Sys2Proof/Certificates/Slice0/Obligations.lean ====
section
/-! DEFINITION. The statements for the provers, from the numbered rules of spec/. Each says which rules it formalises; where one rests on
a choice of the model it names the assumption. -/

open Sys2Proof Sys2Proof.Machine

/-! ### Encodings (spec/30_encoding.md) -/

/-- R90, R91, R93, R100, R105: no bit of an encoding is dropped. Every well-formed instruction is read back from its
code, with every operand at every value. Well-formedness is assumption 8. -/
def Obligations.DecodingReadsBackEveryEncoding : Prop :=
  ∀ i : Instr, i.wellFormed = true → decode (encode i) = .ok i

/-- R90 to R93, R105: what the decoder accepts is well-formed and its encoding is the code read, but for the `wdata`
that a read ignores (R92). -/
def Obligations.EncodingReadsBackEveryDecodedCode : Prop :=
  ∀ (code : Code) (i : Instr), decode code = .ok i →
    i.wellFormed = true ∧
    (encode i = code ∨ ∃ addr wdata, i = .csrr addr ∧ code = .req (packReq Kind.csrr addr wdata))

/-- Words written out from R90, R91, R93, R111 and the programs of spec/95_test_vectors.md section 3; the phase codes of R27. -/
def Obligations.SpecWordsDecodeToTheirInstructions : Prop :=
  decode (.req 0x000000000000000010000000000000000#131) = .ok (.csrr 1#64) ∧
  decode (.req 0x100000000000000030000000000000010#131) = .ok (.csrw 3#64 16#64) ∧
  decode (.req 0x3000000000000000f000000000000000f#131) = .ok (.keyw 15#64 0x0f#64) ∧
  decode (.req 0x50000000000000003000000000000006c#131) = .ok (.msgw 3#64 0x6c#64) ∧
  decode (.req 0x100000000000000000000000000000001#131) = .ok .hash ∧
  decode (.req 0x100000000000000000000000000000002#131) = .ok .hash24 ∧
  decode (.uop 0b0001#4) = .ok .init ∧ decode (.uop 0b0010#4) = .ok .ldblk ∧
  decode (.uop 0b0011#4) = .ok .ldtail ∧ decode (.uop 0b0100#4) = .ok .xin ∧
  decode (.uop 0b0101#4) = .ok .crnd ∧ decode (.uop 0b0110#4) = .ok .xout ∧
  decode (.uop 0b0111#4) = .ok .xff ∧ decode (.uop 0b1000#4) = .ok .frnd ∧
  decode (.uop 0b1001#4) = .ok .fold

/-- R105 to R108: exactly the reserved kinds, command words and phase codes are rejected, each by its name. -/
def Obligations.ReservedCodesAreRejectedByName : Prop :=
  (∀ addr wdata, decode (.req (packReq 0b010#3 addr wdata)) = .error .reservedKeyRead) ∧
  (∀ addr wdata, decode (.req (packReq 0b100#3 addr wdata)) = .error .reservedMsgRead) ∧
  (∀ addr wdata, decode (.req (packReq 0b110#3 addr wdata)) = .error .reservedSpaceRead) ∧
  (∀ addr wdata, decode (.req (packReq 0b111#3 addr wdata)) = .error .reservedSpaceWrite) ∧
  (∀ w : ReqWord, (∃ i, decode (.req w) = .ok i) ↔
    reqKind w = 0b000#3 ∨ reqKind w = 0b001#3 ∨ reqKind w = 0b011#3 ∨ reqKind w = 0b101#3) ∧
  (∀ w : Word, decodeCmd w = .error .reservedCommand ↔ w ≠ 1#64 ∧ w ≠ 2#64) ∧
  decode (.uop 0#4) = .error .idlePhase ∧
  (∀ p : PhaseCode, decode (.uop p) = .error .reservedPhase ↔ 10 ≤ p.toNat)

/-! ### The step (spec/00_scope.md R5, R6; spec/10_state.md R27) -/

/-- R6, R91, R105: the step that serves a request is the meaning of the instruction its word decodes to, after the port
has taken the request (assumptions 3 and 4: `port` and `rdata` are the model's). -/
def Obligations.StepRunsTheDecodedRequest : Prop :=
  ∀ (s : State) (w : ReqWord) (rest : List Event) (i : Instr),
    s.port = .request w :: rest → decode (.req w) = .ok i →
    step s = exec i { s with port := rest, rdata := none }

/-- R27, R100: the engine's step is the meaning of the micro-operation PHASE selects (assumption 3: which events give the
engine its turn). -/
def Obligations.StepRunsTheMicroOperationOfPhase : Prop :=
  ∀ (s : State) (i : Instr), decode (.uop s.phase) = .ok i →
    (s.port = [] → step s = exec i s) ∧
    (∀ rest, s.port = .engine :: rest → step s = exec i { s with port := rest })

/-- Assumption 7: an instruction placed by its row of the opcode table is what the next step runs, with nothing else
changed than PHASE (for a micro-operation) and the last response (for a request). -/
def Obligations.PlacedTableWordIsWhatTheNextStepRuns : Prop :=
  ∀ (s : State) (nbits w : Nat) (i : Instr), decodeTableWord nbits w = some i →
    ∃ u : State, step (s.withFetchWord nbits w) = exec i u ∧
      u = { s with phase := u.phase, rdata := u.rdata } ∧
      (nbits ≤ 8 → u.phase.toNat = w ∧ u.rdata = s.rdata) ∧ (8 < nbits → u.phase = s.phase ∧ u.rdata = none)

/-- R107, R44, R67: reserved reads answer 0, reserved writes are dropped, and so are a read of CMD or of an unmapped CSR and a
write to a read-only or unmapped CSR; no state changes and no error is raised. -/
def Obligations.ReservedRequestsAnswerZeroOrAreDropped : Prop :=
  (∀ (s : State) (kind : BitVec 3) (addr wdata : Word) (rest : List Event),
    s.port = .request (packReq kind addr wdata) :: rest →
    (kind = 0b010#3 ∨ kind = 0b100#3 ∨ kind = 0b110#3 →
      step s = .next { s with port := rest, rdata := some 0#64 }) ∧
    (kind = 0b111#3 → step s = .next { s with port := rest, rdata := none })) ∧
  (∀ (s : State) (addr : Word), addr = 0#64 ∨ 8 < addr.toNat →
    exec (.csrr addr) s = .next { s with rdata := some 0#64 }) ∧
  (∀ (s : State) (addr wdata : Word),
    addr = 1#64 ∨ addr = 2#64 ∨ addr = 7#64 ∨ addr = 8#64 ∨ 8 < addr.toNat →
    exec (.csrw addr wdata) s = .next s)

/-- R27, R108, U4: in IDLE the engine has no step and the machine waits (assumption 5); in PHASE 10 to 15 it has no step
and the machine stops (assumption 6). -/
def Obligations.EngineHasNoStepInIdleOrReservedPhases : Prop :=
  ∀ s : State,
    (s.phase = 0#4 → s.port = [] → step s = .next s) ∧
    (∀ rest, s.phase = 0#4 → s.port = .engine :: rest → step s = .next { s with port := rest }) ∧
    (10 ≤ s.phase.toNat → s.port = [] → step s = .fault .reservedPhase) ∧
    (∀ rest, 10 ≤ s.phase.toNat → s.port = .engine :: rest → step s = .fault .reservedPhase)

/-- R241, R184: PHASE leaves IDLE only by the acceptance of a command that passes validation, and then it is INIT. -/
def Obligations.RunStartsOnlyByAnAcceptedCommand : Prop :=
  ∀ s t : State, s.phase = 0#4 → step s = .next t → t.phase ≠ 0#4 →
    ∃ w rest i, s.port = .request w :: rest ∧ decode (.req w) = .ok i ∧
      (i = .hash24 ∨ i = .hash ∧ s.c ≠ 0#64 ∧ s.d ≠ 0#64) ∧ s.keyLen = 16#64 ∧ t.phase = 1#4

/-! ### Reset (spec/10_state.md R49, spec/70_reset_and_hazards.md R240) -/

/-- R49: the values after reset, for every MSG_CAP; the engine then executes nothing (the machine waits, assumption 5), and a
command issued directly after reset ends with InvalidKeyLength. -/
def Obligations.ResetLeavesTheListedValues : Prop :=
  ∀ (cap : Word) (s : State), s = State.resetWith cap →
    s.phase = 0#4 ∧ s.done = false ∧ s.error = false ∧ s.err = 0#8 ∧ s.result = 0#64 ∧
    s.keyLen = 0#64 ∧ s.msgLen = 0#64 ∧ s.c = 0#64 ∧ s.d = 0#64 ∧
    s.v0 = 0#64 ∧ s.v1 = 0#64 ∧ s.v2 = 0#64 ∧ s.v3 = 0#64 ∧
    s.m = 0#64 ∧ s.off = 0#64 ∧ s.rc = 0#64 ∧ s.cr = 0#64 ∧ s.dr = 0#64 ∧ s.last = false ∧
    (∀ a, s.key.read? a = none) ∧ (∀ a, s.msg.read? a = none) ∧
    step s = .next s ∧
    exec .hash s = .next { s with error := true, err := 1#8 } ∧
    exec .hash24 s = .next { s with error := true, err := 1#8 }

/-- R240: in any state, also in the middle of a run, the reset event gives every register its value of R49 and leaves every
buffer byte unspecified; a run in progress ends without result and without error. What it leaves of the model's own
fields is assumption 10. -/
def Obligations.ResetEventAbandonsTheRun : Prop :=
  ∀ (s : State) (rest : List Event), s.port = .reset :: rest →
    step s = .next { State.resetWith s.msgCap with draws := s.draws, port := rest, rdata := s.rdata }

/-! ### Arithmetic (spec/40_word_codec.md, spec/41_mixing_round.md) -/

/-- R127: bit i of `rotl64(a, n)` is bit (i - n) mod 64 of `a`, and a rotation by 32 swaps the halves. -/
def Obligations.RotationMovesEveryBitByItsAmount : Prop :=
  (∀ (a : Word) (n i : Nat), 1 ≤ n → n ≤ 63 → i < 64 →
    (rotl64 a n).getLsbD i = a.getLsbD ((i + 64 - n) % 64)) ∧
  (∀ a : Word, rotl64 a 32 = a.extractLsb' 0 32 ++ a.extractLsb' 32 32)

/-- R131: the single-assignment form of SipRound. -/
def Obligations.SipRoundHasItsSingleAssignmentForm : Prop :=
  ∀ (v0 v1 v2 v3 a b a' c d c' b' c'' a'' d' : Word),
    a = v0 + v1 → b = rotl64 v1 13 ^^^ a → a' = rotl64 a 32 →
    c = v2 + v3 → d = rotl64 v3 16 ^^^ c → c' = c + b → b' = rotl64 b 17 ^^^ c' → c'' = rotl64 c' 32 →
    a'' = a' + d → d' = rotl64 d 21 ^^^ a'' →
    sipRound { v0 := v0, v1 := v1, v2 := v2, v3 := v3 } = { v0 := a'', v1 := b', v2 := c'', v3 := d' }

/-- R135: SipRound fixes the zero words and is a bijection on four-word tuples. -/
def Obligations.SipRoundIsABijection : Prop :=
  sipRound { v0 := 0#64, v1 := 0#64, v2 := 0#64, v3 := 0#64 } = { v0 := 0#64, v1 := 0#64, v2 := 0#64, v3 := 0#64 } ∧
  Function.Bijective sipRound

/-- R120: the little-endian read is the sum of its bytes at their places, and no bit above them is set. -/
def Obligations.LittleEndianReadIsTheSumOfItsBytes : Prop :=
  ∀ (b : Nat → Byte) (o n : Nat), n ≤ 8 →
    (readU64le b o n).toNat = ∑ i ∈ Finset.range n, (b (o + i)).toNat * 2 ^ (8 * i) ∧
    (∀ j, 8 * n ≤ j → (readU64le b o n).getLsbD j = false) ∧
    readU64le b o 0 = 0#64

/-- R121, R69, R62, R68: MemRead raises exactly when the read would end past the capacity; else it reads the n bytes
little-endian, each written byte as written, and changes no state (but the model's draws, assumption 2). -/
def Obligations.MemReadRaisesPastCapacityElseReads : Prop :=
  ∀ (s : State) (sp : Space) (a n : Nat), n ≤ 8 →
    (s.capacity sp < a + n → s.memRead sp a n = .error .internalExtractionFailure) ∧
    (a + n ≤ s.capacity sp → ∃ (b : Nat → Byte) (drawn : Nat),
      s.memRead sp a n = .ok (readU64le b a n, { s with draws := drawn }) ∧
      ∀ i, i < n → ∀ v, (s.buffer sp).read? (a + i) = some v → b (a + i) = v)

/-- R128: the length tag and the at most seven tail bytes share no bit, so their `or` is their `xor` and their sum. -/
def Obligations.LengthTagAndTailAreDisjoint : Prop :=
  ∀ (len : Word) (b : Nat → Byte) (o n : Nat), n ≤ 7 →
    lengthTag len &&& readU64le b o n = 0#64 ∧
    lengthTag len ||| readU64le b o n = lengthTag len ^^^ readU64le b o n ∧
    lengthTag len ||| readU64le b o n = lengthTag len + readU64le b o n

/-! ### The micro-operations -/

/-- R140: INIT completes in every state. It reads the sixteen key bytes (a byte that was never written is any value, U1)
and writes the state words, M, OFF, RC, LAST and PHASE; every other register, flag and byte keeps its value. -/
def Obligations.InitLoadsTheKeyAndInitialises : Prop :=
  ∀ s : State, ∃ (k : Nat → Byte) (drawn : Nat),
    (∀ i, i < 16 → ∀ v, s.key.read? i = some v → k i = v) ∧
    exec .init s = .next { s with
      v0 := readU64le k 0 8 ^^^ 0x736f6d6570736575#64
      v1 := readU64le k 8 8 ^^^ 0x646f72616e646f6d#64
      v2 := readU64le k 0 8 ^^^ 0x6c7967656e657261#64
      v3 := readU64le k 8 8 ^^^ 0x7465646279746573#64
      m := 0#64
      off := 0#64
      rc := 0#64
      last := false
      phase := if 8 ≤ s.msgLen.toNat then 2#4 else 3#4
      draws := drawn }

/-- R142: LDBLK on a block inside the buffer loads it little-endian (a byte that was never written is any value, U1) and
goes on to XIN; nothing else changes. -/
def Obligations.LdblkLoadsABlockInsideTheBuffer : Prop :=
  ∀ s : State, s.off.toNat + 8 ≤ s.msgCap.toNat → ∃ (b : Nat → Byte) (drawn : Nat),
    (∀ a, s.off.toNat ≤ a → a < s.off.toNat + 8 → ∀ v, s.msg.read? a = some v → b a = v) ∧
    exec .ldblk s = .next { s with m := readU64le b s.off.toNat 8, last := false, phase := 4#4, draws := drawn }

/-- R160: LDTAIL in the states its rule speaks of (0 to 7 bytes left, R50 item 5), the tail inside the buffer, writes the tail
bytes below the length tag and goes on to XIN; nothing else changes. -/
def Obligations.LdtailBuildsTheLengthTaggedBlock : Prop :=
  ∀ (s : State) (n : Nat), s.off.toNat + n = s.msgLen.toNat → n ≤ 7 → s.msgLen.toNat ≤ s.msgCap.toNat →
    ∃ (b : Nat → Byte) (drawn : Nat),
      (∀ a, s.off.toNat ≤ a → a < s.msgLen.toNat → ∀ v, s.msg.read? a = some v → b a = v) ∧
      exec .ldtail s = .next { s with
        m := (BitVec.ofNat 64 (s.msgLen.toNat % 256) <<< 56) ||| readU64le b s.off.toNat n
        last := true, phase := 4#4, draws := drawn }

/-- R142, R160, R213, R216: a load whose read would end past MSG_CAP takes the error InternalExtractionFailure: ERROR, ERR
and PHASE are written and nothing else, M and LAST among it. -/
def Obligations.LoadsPastTheCapacityTakeTheError : Prop :=
  ∀ s : State,
    (s.msgCap.toNat < s.off.toNat + 8 →
      exec .ldblk s = .next { s with error := true, err := 3#8, phase := 0#4 }) ∧
    (s.off.toNat ≤ s.msgLen.toNat → s.msgLen.toNat - s.off.toNat ≤ 7 → s.msgCap.toNat < s.msgLen.toNat →
      exec .ldtail s = .next { s with error := true, err := 3#8, phase := 0#4 })

/-- R143: XIN. -/
def Obligations.XinInjectsTheBlock : Prop :=
  ∀ s : State, exec .xin s = .next { s with v3 := s.v3 ^^^ s.m, rc := 0#64, phase := 5#4 }

/-- R133: CRND applies one SipRound, counts it, and goes on to XOUT when the count is CR. -/
def Obligations.CrndAppliesOneRound : Prop :=
  ∀ (s : State) (w : Words), w = sipRound { v0 := s.v0, v1 := s.v1, v2 := s.v2, v3 := s.v3 } →
    exec .crnd s = .next { s with
      v0 := w.v0, v1 := w.v1, v2 := w.v2, v3 := w.v3
      rc := s.rc + 1#64
      phase := if s.rc + 1#64 = s.cr then 6#4 else 5#4 }

/-- R145: XOUT folds the block back in; after a full block it advances OFF and selects the next load (R29, which speaks of
offsets up to MSG_LEN), after the tail block it goes on to XFF with OFF unchanged. -/
def Obligations.XoutFoldsTheBlockAndAdvances : Prop :=
  ∀ s : State,
    (s.last = false → s.off.toNat + 8 ≤ s.msgLen.toNat → exec .xout s = .next { s with
      v0 := s.v0 ^^^ s.m
      off := s.off + 8#64
      phase := if 8 ≤ s.msgLen.toNat - (s.off.toNat + 8) then 2#4 else 3#4 }) ∧
    (s.last = true → exec .xout s = .next { s with v0 := s.v0 ^^^ s.m, phase := 7#4 })

/-- R164: XFF. -/
def Obligations.XffPerturbsTheState : Prop :=
  ∀ s : State, exec .xff s = .next { s with v2 := s.v2 ^^^ 0xff#64, rc := 0#64, phase := 8#4 }

/-- R134: FRND applies one SipRound, counts it, and goes on to FOLD when the count is DR. -/
def Obligations.FrndAppliesOneRound : Prop :=
  ∀ (s : State) (w : Words), w = sipRound { v0 := s.v0, v1 := s.v1, v2 := s.v2, v3 := s.v3 } →
    exec .frnd s = .next { s with
      v0 := w.v0, v1 := w.v1, v2 := w.v2, v3 := w.v3
      rc := s.rc + 1#64
      phase := if s.rc + 1#64 = s.dr then 9#4 else 8#4 }

/-- R166: FOLD. -/
def Obligations.FoldProducesTheOutput : Prop :=
  ∀ s : State, exec .fold s = .next { s with
    result := s.v0 ^^^ s.v1 ^^^ s.v2 ^^^ s.v3, done := true, phase := 0#4 }

/-- R146: from XIN the engine, left to itself, has the effect of `compress` in CR + 2 steps, and XOUT's successor follows
(R29: after a full block, which lies inside the message). -/
def Obligations.CompressionPassIsCompress : Prop :=
  ∀ (s : State) (w : Words), s.phase = 4#4 → s.port = [] → 1 ≤ s.cr.toNat →
    (s.last = false → s.off.toNat + 8 ≤ s.msgLen.toNat) →
    w = compress { v0 := s.v0, v1 := s.v1, v2 := s.v2, v3 := s.v3 } s.m s.cr.toNat →
    run (s.cr.toNat + 2) s = .next { s with
      v0 := w.v0, v1 := w.v1, v2 := w.v2, v3 := w.v3
      rc := s.cr
      off := if s.last then s.off else s.off + 8#64
      phase := if s.last then 7#4 else if 8 ≤ s.msgLen.toNat - (s.off.toNat + 8) then 2#4 else 3#4 }

/-! ### Commands (spec/44_commands.md) -/

/-- R184, R185: HASH in IDLE with KEY_LEN = 16 and both counts greater than 0 clears the outcome, latches the counts and starts
the run; every other register, flag and byte keeps its value. -/
def Obligations.HashStartsTheRun : Prop :=
  ∀ s : State, s.phase = 0#4 → s.keyLen = 16#64 → s.c ≠ 0#64 → s.d ≠ 0#64 →
    exec .hash s = .next { s with
      result := 0#64, done := false, error := false, err := 0#8, cr := s.c, dr := s.d, phase := 1#4 }

/-- R184, R186: HASH24 in IDLE with KEY_LEN = 16, whatever C and D hold, starts the run with the counts 2 and 4. -/
def Obligations.Hash24StartsTheRun : Prop :=
  ∀ s : State, s.phase = 0#4 → s.keyLen = 16#64 →
    exec .hash24 s = .next { s with
      result := 0#64, done := false, error := false, err := 0#8, cr := 2#64, dr := 4#64, phase := 1#4 }

/-- R184, R211, R212, R215, R216, R217: the two validation errors, the key length first. The error entry happens in the
accepting step, no engine register is written, and HASH24 never takes InvalidRoundCount. -/
def Obligations.ValidationErrorsArePrecise : Prop :=
  ∀ s : State, s.phase = 0#4 →
    (s.keyLen ≠ 16#64 →
      exec .hash s = .next { s with result := 0#64, done := false, error := true, err := 1#8 } ∧
      exec .hash24 s = .next { s with result := 0#64, done := false, error := true, err := 1#8 }) ∧
    (s.keyLen = 16#64 → s.c = 0#64 ∨ s.d = 0#64 →
      exec .hash s = .next { s with result := 0#64, done := false, error := true, err := 2#8 })

/-- R186: the state after HASH24 equals, in every register but C and D, the state after `csrw C, 2; csrw D, 4; csrw CMD, 1`
from the same start. -/
def Obligations.Hash24EqualsHashWithTwoAndFour : Prop :=
  ∀ (s : State) (rest three one : List Event), s.phase = 0#4 →
    three = .request (packReq 0b001#3 5#64 2#64) :: .request (packReq 0b001#3 6#64 4#64) ::
      .request (packReq 0b001#3 0#64 1#64) :: rest →
    one = .request (packReq 0b001#3 0#64 2#64) :: rest →
    ∃ t u : State, run 3 { s with port := three } = .next t ∧ run 1 { s with port := one } = .next u ∧
      t = { u with c := 2#64, d := 4#64 } ∧ u.c = s.c ∧ u.d = s.d

/-- R210 to R213: the engine raises exactly three errors, by these causes and nothing else, each with its code. Premise: the
invariant of `EveryStepKeepsTheInvariant`. -/
def Obligations.ErrorsComeFromTheThreeCausesOnly : Prop :=
  ∀ s t : State, Inv s → step s = .next t → s.error = false → t.error = true →
    t.phase = 0#4 ∧
    ((∃ w rest i, s.port = .request w :: rest ∧ decode (.req w) = .ok i ∧ (i = .hash ∨ i = .hash24) ∧
        s.keyLen ≠ 16#64 ∧ t.err = 1#8) ∨
     (∃ w rest, s.port = .request w :: rest ∧ decode (.req w) = .ok .hash ∧
        s.keyLen = 16#64 ∧ (s.c = 0#64 ∨ s.d = 0#64) ∧ t.err = 2#8) ∨
     ((s.port = [] ∨ s.port.head? = some .engine) ∧
        (s.phase = 2#4 ∧ s.msgCap.toNat < s.off.toNat + 8 ∨ s.phase = 3#4) ∧
        s.msgCap.toNat < s.msgLen.toNat ∧ t.err = 3#8))

/-- R188, R218, R74: in IDLE the outcome registers keep their values, and PHASE stays IDLE, until a command is issued or reset
occurs; reading them clears nothing. -/
def Obligations.OutcomeKeepsUntilNextCommandOrReset : Prop :=
  ∀ s t : State, s.phase = 0#4 → step s = .next t →
    (t.phase = 0#4 ∧ t.done = s.done ∧ t.error = s.error ∧ t.err = s.err ∧ t.result = s.result) ∨
    (∃ rest, s.port = .reset :: rest) ∨
    (∃ w rest i, s.port = .request w :: rest ∧ decode (.req w) = .ok i ∧ (i = .hash ∨ i = .hash24))

/-- R188: a run that was started ends, but for reset, with exactly one of DONE and ERROR set. Premise: the invariant of
`EveryStepKeepsTheInvariant`. -/
def Obligations.RunEndsWithExactlyOneOutcome : Prop :=
  ∀ s t : State, Inv s → s.phase ≠ 0#4 → step s = .next t → t.phase = 0#4 →
    (∃ rest, s.port = .reset :: rest) ∨
    (t.done = true ∧ t.error = false ∧ t.err = 0#8) ∨
    (t.done = false ∧ t.error = true ∧ t.err = 3#8 ∧ t.result = 0#64)

/-! ### Host requests (spec/44_commands.md) -/

/-- R190: CSRR completes in every state, answers the value of the CSR, and changes no state but the response. -/
def Obligations.CsrrAnswersTheRegister : Prop :=
  ∀ s : State,
    exec (.csrr 0#64) s = .next { s with rdata := some 0#64 } ∧
    exec (.csrr 1#64) s = .next { s with rdata := some (
      (s.phase.setWidth 64 <<< 4) ||| ((BitVec.ofBool s.error).setWidth 64 <<< 2) |||
      ((BitVec.ofBool s.done).setWidth 64 <<< 1) ||| (BitVec.ofBool (s.phase != 0#4)).setWidth 64) } ∧
    exec (.csrr 2#64) s = .next { s with rdata := some (s.err.setWidth 64) } ∧
    exec (.csrr 3#64) s = .next { s with rdata := some s.keyLen } ∧
    exec (.csrr 4#64) s = .next { s with rdata := some s.msgLen } ∧
    exec (.csrr 5#64) s = .next { s with rdata := some s.c } ∧
    exec (.csrr 6#64) s = .next { s with rdata := some s.d } ∧
    exec (.csrr 7#64) s = .next { s with rdata := some s.result } ∧
    exec (.csrr 8#64) s = .next { s with rdata := some s.msgCap } ∧
    (∀ addr : Word, 8 < addr.toNat → exec (.csrr addr) s = .next { s with rdata := some 0#64 })

/-- R191, R106: CSRW. In IDLE it writes the configuration CSR, issues the command, or is dropped; while busy it is dropped. -/
def Obligations.CsrwWritesConfigurationOrIssuesTheCommand : Prop :=
  ∀ (s : State) (wdata : Word),
    (s.phase = 0#4 →
      exec (.csrw 3#64 wdata) s = .next { s with keyLen := wdata } ∧
      exec (.csrw 4#64 wdata) s = .next { s with msgLen := wdata } ∧
      exec (.csrw 5#64 wdata) s = .next { s with c := wdata } ∧
      exec (.csrw 6#64 wdata) s = .next { s with d := wdata } ∧
      (wdata = 1#64 → exec (.csrw 0#64 wdata) s = exec .hash s) ∧
      (wdata = 2#64 → exec (.csrw 0#64 wdata) s = exec .hash24 s) ∧
      (wdata ≠ 1#64 → wdata ≠ 2#64 → exec (.csrw 0#64 wdata) s = .next s) ∧
      (∀ addr : Word, addr = 1#64 ∨ addr = 2#64 ∨ 7 ≤ addr.toNat → exec (.csrw addr wdata) s = .next s)) ∧
    (s.phase ≠ 0#4 → ∀ addr : Word, exec (.csrw addr wdata) s = .next s)

/-- R192: KEYW. In IDLE with `addr` 0 to 15 that key byte takes `wdata[7:0]` and every other byte and register keeps its value;
otherwise the request is dropped. -/
def Obligations.KeywWritesOneKeyByte : Prop :=
  ∀ (s : State) (addr wdata : Word),
    (s.phase = 0#4 → addr.toNat ≤ 15 → ∃ t : State, exec (.keyw addr wdata) s = .next t ∧
      t.key.read? addr.toNat = some (wdata.extractLsb' 0 8) ∧
      (∀ a, a ≠ addr.toNat → t.key.read? a = s.key.read? a) ∧
      (∀ a, t.msg.read? a = s.msg.read? a) ∧
      t = { s with key := t.key }) ∧
    (s.phase ≠ 0#4 ∨ 16 ≤ addr.toNat → exec (.keyw addr wdata) s = .next s)

/-- R193: MSGW. In IDLE with `addr` below MSG_CAP that message byte takes `wdata[7:0]` and every other byte and register keeps its
value; otherwise the request is dropped. -/
def Obligations.MsgwWritesOneMessageByte : Prop :=
  ∀ (s : State) (addr wdata : Word),
    (s.phase = 0#4 → addr.toNat < s.msgCap.toNat → ∃ t : State, exec (.msgw addr wdata) s = .next t ∧
      t.msg.read? addr.toNat = some (wdata.extractLsb' 0 8) ∧
      (∀ a, a ≠ addr.toNat → t.msg.read? a = s.msg.read? a) ∧
      (∀ a, t.key.read? a = s.key.read? a) ∧
      t = { s with msg := t.msg }) ∧
    (s.phase ≠ 0#4 ∨ s.msgCap.toNat ≤ addr.toNat → exec (.msgw addr wdata) s = .next s)

/-- R250: while PHASE is not IDLE every host write, of any kind, address and data, is dropped and leaves no trace; a read is
never blocked. -/
def Obligations.WriteLockDropsEveryHostWrite : Prop :=
  ∀ (s : State) (w : ReqWord) (rest : List Event), s.port = .request w :: rest →
    (s.phase ≠ 0#4 → w.getLsbD 128 = true → step s = .next { s with port := rest, rdata := none }) ∧
    (w.getLsbD 128 = false → ∃ v, step s = .next { s with port := rest, rdata := some v })

/-- R36: the fields of STATUS, and the twelve values a host can see. -/
def Obligations.StatusReadsItsFieldsAndTwelveValues : Prop :=
  (∀ s : State, ∃ v : Word, exec (.csrr 1#64) s = .next { s with rdata := some v } ∧
    v.getLsbD 0 = (s.phase != 0#4) ∧ v.getLsbD 1 = s.done ∧ v.getLsbD 2 = s.error ∧ v.getLsbD 3 = false ∧
    v.extractLsb' 4 4 = s.phase ∧ v.extractLsb' 8 56 = 0#56) ∧
  (∀ s : State, Reachable s → ∃ v : Word, exec (.csrr 1#64) s = .next { s with rdata := some v } ∧
    v ∈ [0x00#64, 0x02#64, 0x04#64, 0x11#64, 0x21#64, 0x31#64, 0x41#64, 0x51#64, 0x61#64, 0x71#64, 0x81#64, 0x91#64])

/-- R25: no request reads v0..v3, M, OFF, RC, CR, DR, LAST, KEY[ ] or MSG[ ]: two states that differ in these alone answer
every request alike and still differ in these alone. It speaks of the steps of requests; over the engine's steps these
registers do bear on RESULT and STATUS.PHASE (R47). -/
def Obligations.NoRequestReadsHiddenState : Prop :=
  ∀ (s t : State) (w : ReqWord) (rest : List Event), SameForHost s t → s.port = .request w :: rest →
    ∃ s' t' : State, step s = .next s' ∧ step t = .next t' ∧ SameForHost s' t'

/-! ### Invariants (spec/10_state.md R50) -/

/-- The invariant holds after reset, for every MSG_CAP. -/
def Obligations.ResetMeetsTheInvariant : Prop := ∀ cap : Word, Inv (State.resetWith cap)

/-- Every step, of the engine, of the port or of reset, keeps the invariant, from every state that meets it. -/
def Obligations.EveryStepKeepsTheInvariant : Prop := ∀ s t : State, Inv s → step s = .next t → Inv t

/-- R50: items 1 to 7 hold in every reachable state, and item 8: while PHASE is not IDLE no step but reset changes the
configuration, the buffers or the counts in effect. -/
def Obligations.ReachableStatesMeetRuleR50 : Prop :=
  (∀ s : State, Reachable s → RuleR50 s) ∧
  (∀ s t : State, Reachable s → s.phase ≠ 0#4 → (∀ rest, s.port ≠ .reset :: rest) → step s = .next t →
    t.keyLen = s.keyLen ∧ t.msgLen = s.msgLen ∧ t.c = s.c ∧ t.d = s.d ∧ t.key = s.key ∧ t.msg = s.msg ∧
    t.cr = s.cr ∧ t.dr = s.dr)

/-- The buffers keep their canonical form and hold no byte outside their space, and MSG_CAP never changes (R8, R60, R66). -/
def Obligations.BuffersStayCanonicalAndInside : Prop :=
  (∀ cap : Word, BuffersWf (State.resetWith cap)) ∧
  (∀ s t : State, BuffersWf s → step s = .next t → BuffersWf t ∧ t.msgCap = s.msgCap)

/-- R247: neither acceptance nor any micro-operation writes KEY[ ], MSG[ ], KEY_LEN, MSG_LEN, C or D. -/
def Obligations.CommandsAndMicroOperationsKeepTheInputs : Prop :=
  ∀ (i : Instr) (s : State),
    i ∈ [Instr.hash, .hash24, .init, .ldblk, .ldtail, .xin, .crnd, .xout, .xff, .frnd, .fold] →
    ∃ t : State, exec i s = .next t ∧ (∀ a, t.key.read? a = s.key.read? a) ∧ (∀ a, t.msg.read? a = s.msg.read? a) ∧
      t.keyLen = s.keyLen ∧ t.msgLen = s.msgLen ∧ t.c = s.c ∧ t.d = s.d ∧ t.msgCap = s.msgCap

/-- R47, R22: nothing carries over between runs. Two idle states that agree on the inputs are, after a command passes
validation and INIT has run, the same state, whatever earlier runs left in the other registers. -/
def Obligations.NothingCarriesOverBetweenRuns : Prop :=
  ∀ (s t : State) (op : Op) (rest : List Event),
    s.phase = 0#4 → t.phase = 0#4 → s.keyLen = 16#64 → s.countC op ≠ 0#64 → s.countD op ≠ 0#64 →
    s.port = .request (packReq 0b001#3 0#64 op.word) :: .engine :: rest → t.port = s.port →
    t.keyLen = s.keyLen → t.msgLen = s.msgLen → t.c = s.c → t.d = s.d → t.key = s.key → t.msg = s.msg →
    t.msgCap = s.msgCap → t.draws = s.draws →
    ∃ u : State, run 2 s = .next u ∧ run 2 t = .next u

/-- R256: which micro-operations a run executes, and how many, depends only on MSG_LEN, CR, DR and MSG_CAP. -/
def Obligations.RunShapeIsIndependentOfKeyAndMessage : Prop :=
  ∀ s t : State, s.phase = 1#4 → t.phase = 1#4 → s.port = [] → t.port = [] →
    s.msgLen = t.msgLen → s.cr = t.cr → s.dr = t.dr → s.msgCap = t.msgCap →
    ∀ (n : Nat) (s' : State), run n s = .next s' → ∃ t' : State, run n t = .next t' ∧ t'.phase = s'.phase

/-! ### Whole runs -/

/-- R255, R123: the engine, left to itself after acceptance, ends with DONE after exactly the listed number of steps when
MSG_LEN <= MSG_CAP, whatever bytes were written; and otherwise with InternalExtractionFailure after exactly the listed
number of steps, at the first read past MSG_CAP. Premise: the invariant of `EveryStepKeepsTheInvariant`. -/
def Obligations.RunsTakeTheListedNumberOfSteps : Prop :=
  ∀ s : State, Inv s → s.phase = 1#4 → s.port = [] →
    (s.msgLen.toNat ≤ s.msgCap.toNat →
      (∃ t, run (doneSteps s.msgLen.toNat s.cr.toNat s.dr.toNat) s = .next t ∧
        t.phase = 0#4 ∧ t.done = true ∧ t.error = false ∧ t.err = 0#8) ∧
      (∀ k, k < doneSteps s.msgLen.toNat s.cr.toNat s.dr.toNat → ∃ u, run k s = .next u ∧ u.phase ≠ 0#4)) ∧
    (s.msgCap.toNat < s.msgLen.toNat →
      (∃ t, run (failSteps s.msgCap.toNat s.cr.toNat) s = .next t ∧
        t.phase = 0#4 ∧ t.done = false ∧ t.error = true ∧ t.err = 3#8 ∧ t.result = 0#64 ∧
        t.off.toNat = 8 * (s.msgCap.toNat / 8)) ∧
      (∀ k, k < failSteps s.msgCap.toNat s.cr.toNat → ∃ u, run k s = .next u ∧ u.phase ≠ 0#4) ∧
      (∃ u, run (failSteps s.msgCap.toNat s.cr.toNat - 1) s = .next u ∧
        u.phase = if 8 ≤ s.msgLen.toNat - 8 * (s.msgCap.toNat / 8) then 2#4 else 3#4))

/-- R171 with no request in between: a command accepted with KEY_LEN = 16, counts greater than 0, MSG_LEN <= MSG_CAP and every
byte of the key and the message written leads, after the accepting step and exactly the listed number of engine steps,
to DONE with the value of `siphash_core`. -/
def Obligations.AcceptedCommandComputesSipHash : Prop :=
  ∀ (s : State) (op : Op) (k b : Nat → Byte),
    s.phase = 0#4 → s.port = [.request (packReq 0b001#3 0#64 op.word)] → s.keyLen = 16#64 →
    1 ≤ (s.countC op).toNat → 1 ≤ (s.countD op).toNat → s.msgLen.toNat ≤ s.msgCap.toNat →
    (∀ i, i < 16 → s.key.read? i = some (k i)) → (∀ i, i < s.msgLen.toNat → s.msg.read? i = some (b i)) →
    ∃ t, run (1 + doneSteps s.msgLen.toNat (s.countC op).toNat (s.countD op).toNat) s = .next t ∧
      t.phase = 0#4 ∧ t.done = true ∧ t.error = false ∧
      t.result = siphashCore k b s.msgLen.toNat (s.countC op).toNat (s.countD op).toNat

/-- R171, R72: the same whatever host requests are interleaved with the engine steps: `evs` holds any requests and as many
turns of the engine as R171 lists, the last of them at its end. -/
def Obligations.InterleavedRequestsDoNotChangeTheHash : Prop :=
  ∀ (s : State) (op : Op) (k b : Nat → Byte) (evs rest : List Event),
    s.phase = 0#4 → s.port = .request (packReq 0b001#3 0#64 op.word) :: (evs ++ .engine :: rest) →
    s.keyLen = 16#64 → 1 ≤ (s.countC op).toNat → 1 ≤ (s.countD op).toNat → s.msgLen.toNat ≤ s.msgCap.toNat →
    (∀ i, i < 16 → s.key.read? i = some (k i)) → (∀ i, i < s.msgLen.toNat → s.msg.read? i = some (b i)) →
    Event.reset ∉ evs →
    engineTurns evs + 1 = doneSteps s.msgLen.toNat (s.countC op).toNat (s.countD op).toNat →
    ∃ t, run (1 + evs.length + 1) s = .next t ∧ t.port = rest ∧
      t.phase = 0#4 ∧ t.done = true ∧ t.error = false ∧
      t.result = siphashCore k b s.msgLen.toNat (s.countC op).toNat (s.countD op).toNat
end

