-- ==== Sys2Proof/Laws/State.lean ====
section
/-! SUPPORT. One lemma per field per named update of State, each true by rfl. -/

namespace Sys2Proof.Machine

open Sys2Proof

/-! ### errorEntry -/

@[simp] theorem State.errorEntry_v0 (s : State) (e : ErrorKind) : (s.errorEntry e).v0 = s.v0 := rfl
@[simp] theorem State.errorEntry_v1 (s : State) (e : ErrorKind) : (s.errorEntry e).v1 = s.v1 := rfl
@[simp] theorem State.errorEntry_v2 (s : State) (e : ErrorKind) : (s.errorEntry e).v2 = s.v2 := rfl
@[simp] theorem State.errorEntry_v3 (s : State) (e : ErrorKind) : (s.errorEntry e).v3 = s.v3 := rfl
@[simp] theorem State.errorEntry_m (s : State) (e : ErrorKind) : (s.errorEntry e).m = s.m := rfl
@[simp] theorem State.errorEntry_phase (s : State) (e : ErrorKind) : (s.errorEntry e).phase = Phase.idle := rfl
@[simp] theorem State.errorEntry_off (s : State) (e : ErrorKind) : (s.errorEntry e).off = s.off := rfl
@[simp] theorem State.errorEntry_rc (s : State) (e : ErrorKind) : (s.errorEntry e).rc = s.rc := rfl
@[simp] theorem State.errorEntry_cr (s : State) (e : ErrorKind) : (s.errorEntry e).cr = s.cr := rfl
@[simp] theorem State.errorEntry_dr (s : State) (e : ErrorKind) : (s.errorEntry e).dr = s.dr := rfl
@[simp] theorem State.errorEntry_last (s : State) (e : ErrorKind) : (s.errorEntry e).last = s.last := rfl
@[simp] theorem State.errorEntry_done (s : State) (e : ErrorKind) : (s.errorEntry e).done = s.done := rfl
@[simp] theorem State.errorEntry_error (s : State) (e : ErrorKind) : (s.errorEntry e).error = true := rfl
@[simp] theorem State.errorEntry_err (s : State) (e : ErrorKind) : (s.errorEntry e).err = e.code := rfl
@[simp] theorem State.errorEntry_result (s : State) (e : ErrorKind) : (s.errorEntry e).result = s.result := rfl
@[simp] theorem State.errorEntry_keyLen (s : State) (e : ErrorKind) : (s.errorEntry e).keyLen = s.keyLen := rfl
@[simp] theorem State.errorEntry_msgLen (s : State) (e : ErrorKind) : (s.errorEntry e).msgLen = s.msgLen := rfl
@[simp] theorem State.errorEntry_c (s : State) (e : ErrorKind) : (s.errorEntry e).c = s.c := rfl
@[simp] theorem State.errorEntry_d (s : State) (e : ErrorKind) : (s.errorEntry e).d = s.d := rfl
@[simp] theorem State.errorEntry_key (s : State) (e : ErrorKind) : (s.errorEntry e).key = s.key := rfl
@[simp] theorem State.errorEntry_msg (s : State) (e : ErrorKind) : (s.errorEntry e).msg = s.msg := rfl
@[simp] theorem State.errorEntry_msgCap (s : State) (e : ErrorKind) : (s.errorEntry e).msgCap = s.msgCap := rfl
@[simp] theorem State.errorEntry_draws (s : State) (e : ErrorKind) : (s.errorEntry e).draws = s.draws := rfl
@[simp] theorem State.errorEntry_port (s : State) (e : ErrorKind) : (s.errorEntry e).port = s.port := rfl
@[simp] theorem State.errorEntry_rdata (s : State) (e : ErrorKind) : (s.errorEntry e).rdata = s.rdata := rfl

/-! ### clearOutcome -/

@[simp] theorem State.clearOutcome_v0 (s : State) : s.clearOutcome.v0 = s.v0 := rfl
@[simp] theorem State.clearOutcome_v1 (s : State) : s.clearOutcome.v1 = s.v1 := rfl
@[simp] theorem State.clearOutcome_v2 (s : State) : s.clearOutcome.v2 = s.v2 := rfl
@[simp] theorem State.clearOutcome_v3 (s : State) : s.clearOutcome.v3 = s.v3 := rfl
@[simp] theorem State.clearOutcome_m (s : State) : s.clearOutcome.m = s.m := rfl
@[simp] theorem State.clearOutcome_phase (s : State) : s.clearOutcome.phase = s.phase := rfl
@[simp] theorem State.clearOutcome_off (s : State) : s.clearOutcome.off = s.off := rfl
@[simp] theorem State.clearOutcome_rc (s : State) : s.clearOutcome.rc = s.rc := rfl
@[simp] theorem State.clearOutcome_cr (s : State) : s.clearOutcome.cr = s.cr := rfl
@[simp] theorem State.clearOutcome_dr (s : State) : s.clearOutcome.dr = s.dr := rfl
@[simp] theorem State.clearOutcome_last (s : State) : s.clearOutcome.last = s.last := rfl
@[simp] theorem State.clearOutcome_done (s : State) : s.clearOutcome.done = false := rfl
@[simp] theorem State.clearOutcome_error (s : State) : s.clearOutcome.error = false := rfl
@[simp] theorem State.clearOutcome_err (s : State) : s.clearOutcome.err = 0#8 := rfl
@[simp] theorem State.clearOutcome_result (s : State) : s.clearOutcome.result = 0#64 := rfl
@[simp] theorem State.clearOutcome_keyLen (s : State) : s.clearOutcome.keyLen = s.keyLen := rfl
@[simp] theorem State.clearOutcome_msgLen (s : State) : s.clearOutcome.msgLen = s.msgLen := rfl
@[simp] theorem State.clearOutcome_c (s : State) : s.clearOutcome.c = s.c := rfl
@[simp] theorem State.clearOutcome_d (s : State) : s.clearOutcome.d = s.d := rfl
@[simp] theorem State.clearOutcome_key (s : State) : s.clearOutcome.key = s.key := rfl
@[simp] theorem State.clearOutcome_msg (s : State) : s.clearOutcome.msg = s.msg := rfl
@[simp] theorem State.clearOutcome_msgCap (s : State) : s.clearOutcome.msgCap = s.msgCap := rfl
@[simp] theorem State.clearOutcome_draws (s : State) : s.clearOutcome.draws = s.draws := rfl
@[simp] theorem State.clearOutcome_port (s : State) : s.clearOutcome.port = s.port := rfl
@[simp] theorem State.clearOutcome_rdata (s : State) : s.clearOutcome.rdata = s.rdata := rfl

/-! ### advanceDraws -/

@[simp] theorem State.advanceDraws_v0 (s : State) (n : Nat) : (s.advanceDraws n).v0 = s.v0 := rfl
@[simp] theorem State.advanceDraws_v1 (s : State) (n : Nat) : (s.advanceDraws n).v1 = s.v1 := rfl
@[simp] theorem State.advanceDraws_v2 (s : State) (n : Nat) : (s.advanceDraws n).v2 = s.v2 := rfl
@[simp] theorem State.advanceDraws_v3 (s : State) (n : Nat) : (s.advanceDraws n).v3 = s.v3 := rfl
@[simp] theorem State.advanceDraws_m (s : State) (n : Nat) : (s.advanceDraws n).m = s.m := rfl
@[simp] theorem State.advanceDraws_phase (s : State) (n : Nat) : (s.advanceDraws n).phase = s.phase := rfl
@[simp] theorem State.advanceDraws_off (s : State) (n : Nat) : (s.advanceDraws n).off = s.off := rfl
@[simp] theorem State.advanceDraws_rc (s : State) (n : Nat) : (s.advanceDraws n).rc = s.rc := rfl
@[simp] theorem State.advanceDraws_cr (s : State) (n : Nat) : (s.advanceDraws n).cr = s.cr := rfl
@[simp] theorem State.advanceDraws_dr (s : State) (n : Nat) : (s.advanceDraws n).dr = s.dr := rfl
@[simp] theorem State.advanceDraws_last (s : State) (n : Nat) : (s.advanceDraws n).last = s.last := rfl
@[simp] theorem State.advanceDraws_done (s : State) (n : Nat) : (s.advanceDraws n).done = s.done := rfl
@[simp] theorem State.advanceDraws_error (s : State) (n : Nat) : (s.advanceDraws n).error = s.error := rfl
@[simp] theorem State.advanceDraws_err (s : State) (n : Nat) : (s.advanceDraws n).err = s.err := rfl
@[simp] theorem State.advanceDraws_result (s : State) (n : Nat) : (s.advanceDraws n).result = s.result := rfl
@[simp] theorem State.advanceDraws_keyLen (s : State) (n : Nat) : (s.advanceDraws n).keyLen = s.keyLen := rfl
@[simp] theorem State.advanceDraws_msgLen (s : State) (n : Nat) : (s.advanceDraws n).msgLen = s.msgLen := rfl
@[simp] theorem State.advanceDraws_c (s : State) (n : Nat) : (s.advanceDraws n).c = s.c := rfl
@[simp] theorem State.advanceDraws_d (s : State) (n : Nat) : (s.advanceDraws n).d = s.d := rfl
@[simp] theorem State.advanceDraws_key (s : State) (n : Nat) : (s.advanceDraws n).key = s.key := rfl
@[simp] theorem State.advanceDraws_msg (s : State) (n : Nat) : (s.advanceDraws n).msg = s.msg := rfl
@[simp] theorem State.advanceDraws_msgCap (s : State) (n : Nat) : (s.advanceDraws n).msgCap = s.msgCap := rfl
@[simp] theorem State.advanceDraws_draws (s : State) (n : Nat) : (s.advanceDraws n).draws = s.draws + n := rfl
@[simp] theorem State.advanceDraws_port (s : State) (n : Nat) : (s.advanceDraws n).port = s.port := rfl
@[simp] theorem State.advanceDraws_rdata (s : State) (n : Nat) : (s.advanceDraws n).rdata = s.rdata := rfl

/-! ### respond -/

@[simp] theorem State.respond_v0 (s : State) (v : Word) : (s.respond v).v0 = s.v0 := rfl
@[simp] theorem State.respond_v1 (s : State) (v : Word) : (s.respond v).v1 = s.v1 := rfl
@[simp] theorem State.respond_v2 (s : State) (v : Word) : (s.respond v).v2 = s.v2 := rfl
@[simp] theorem State.respond_v3 (s : State) (v : Word) : (s.respond v).v3 = s.v3 := rfl
@[simp] theorem State.respond_m (s : State) (v : Word) : (s.respond v).m = s.m := rfl
@[simp] theorem State.respond_phase (s : State) (v : Word) : (s.respond v).phase = s.phase := rfl
@[simp] theorem State.respond_off (s : State) (v : Word) : (s.respond v).off = s.off := rfl
@[simp] theorem State.respond_rc (s : State) (v : Word) : (s.respond v).rc = s.rc := rfl
@[simp] theorem State.respond_cr (s : State) (v : Word) : (s.respond v).cr = s.cr := rfl
@[simp] theorem State.respond_dr (s : State) (v : Word) : (s.respond v).dr = s.dr := rfl
@[simp] theorem State.respond_last (s : State) (v : Word) : (s.respond v).last = s.last := rfl
@[simp] theorem State.respond_done (s : State) (v : Word) : (s.respond v).done = s.done := rfl
@[simp] theorem State.respond_error (s : State) (v : Word) : (s.respond v).error = s.error := rfl
@[simp] theorem State.respond_err (s : State) (v : Word) : (s.respond v).err = s.err := rfl
@[simp] theorem State.respond_result (s : State) (v : Word) : (s.respond v).result = s.result := rfl
@[simp] theorem State.respond_keyLen (s : State) (v : Word) : (s.respond v).keyLen = s.keyLen := rfl
@[simp] theorem State.respond_msgLen (s : State) (v : Word) : (s.respond v).msgLen = s.msgLen := rfl
@[simp] theorem State.respond_c (s : State) (v : Word) : (s.respond v).c = s.c := rfl
@[simp] theorem State.respond_d (s : State) (v : Word) : (s.respond v).d = s.d := rfl
@[simp] theorem State.respond_key (s : State) (v : Word) : (s.respond v).key = s.key := rfl
@[simp] theorem State.respond_msg (s : State) (v : Word) : (s.respond v).msg = s.msg := rfl
@[simp] theorem State.respond_msgCap (s : State) (v : Word) : (s.respond v).msgCap = s.msgCap := rfl
@[simp] theorem State.respond_draws (s : State) (v : Word) : (s.respond v).draws = s.draws := rfl
@[simp] theorem State.respond_port (s : State) (v : Word) : (s.respond v).port = s.port := rfl
@[simp] theorem State.respond_rdata (s : State) (v : Word) : (s.respond v).rdata = some v := rfl

/-! ### setPort -/

@[simp] theorem State.setPort_v0 (s : State) (p : List Event) : (s.setPort p).v0 = s.v0 := rfl
@[simp] theorem State.setPort_v1 (s : State) (p : List Event) : (s.setPort p).v1 = s.v1 := rfl
@[simp] theorem State.setPort_v2 (s : State) (p : List Event) : (s.setPort p).v2 = s.v2 := rfl
@[simp] theorem State.setPort_v3 (s : State) (p : List Event) : (s.setPort p).v3 = s.v3 := rfl
@[simp] theorem State.setPort_m (s : State) (p : List Event) : (s.setPort p).m = s.m := rfl
@[simp] theorem State.setPort_phase (s : State) (p : List Event) : (s.setPort p).phase = s.phase := rfl
@[simp] theorem State.setPort_off (s : State) (p : List Event) : (s.setPort p).off = s.off := rfl
@[simp] theorem State.setPort_rc (s : State) (p : List Event) : (s.setPort p).rc = s.rc := rfl
@[simp] theorem State.setPort_cr (s : State) (p : List Event) : (s.setPort p).cr = s.cr := rfl
@[simp] theorem State.setPort_dr (s : State) (p : List Event) : (s.setPort p).dr = s.dr := rfl
@[simp] theorem State.setPort_last (s : State) (p : List Event) : (s.setPort p).last = s.last := rfl
@[simp] theorem State.setPort_done (s : State) (p : List Event) : (s.setPort p).done = s.done := rfl
@[simp] theorem State.setPort_error (s : State) (p : List Event) : (s.setPort p).error = s.error := rfl
@[simp] theorem State.setPort_err (s : State) (p : List Event) : (s.setPort p).err = s.err := rfl
@[simp] theorem State.setPort_result (s : State) (p : List Event) : (s.setPort p).result = s.result := rfl
@[simp] theorem State.setPort_keyLen (s : State) (p : List Event) : (s.setPort p).keyLen = s.keyLen := rfl
@[simp] theorem State.setPort_msgLen (s : State) (p : List Event) : (s.setPort p).msgLen = s.msgLen := rfl
@[simp] theorem State.setPort_c (s : State) (p : List Event) : (s.setPort p).c = s.c := rfl
@[simp] theorem State.setPort_d (s : State) (p : List Event) : (s.setPort p).d = s.d := rfl
@[simp] theorem State.setPort_key (s : State) (p : List Event) : (s.setPort p).key = s.key := rfl
@[simp] theorem State.setPort_msg (s : State) (p : List Event) : (s.setPort p).msg = s.msg := rfl
@[simp] theorem State.setPort_msgCap (s : State) (p : List Event) : (s.setPort p).msgCap = s.msgCap := rfl
@[simp] theorem State.setPort_draws (s : State) (p : List Event) : (s.setPort p).draws = s.draws := rfl
@[simp] theorem State.setPort_port (s : State) (p : List Event) : (s.setPort p).port = p := rfl
@[simp] theorem State.setPort_rdata (s : State) (p : List Event) : (s.setPort p).rdata = s.rdata := rfl

/-- Replacing the events by themselves changes nothing. -/
theorem State.setPort_self {s : State} {p : List Event} (h : s.port = p) : s.setPort p = s := by
  subst h
  rfl

/-! ### takeRequest -/

@[simp] theorem State.takeRequest_v0 (s : State) (p : List Event) : (s.takeRequest p).v0 = s.v0 := rfl
@[simp] theorem State.takeRequest_v1 (s : State) (p : List Event) : (s.takeRequest p).v1 = s.v1 := rfl
@[simp] theorem State.takeRequest_v2 (s : State) (p : List Event) : (s.takeRequest p).v2 = s.v2 := rfl
@[simp] theorem State.takeRequest_v3 (s : State) (p : List Event) : (s.takeRequest p).v3 = s.v3 := rfl
@[simp] theorem State.takeRequest_m (s : State) (p : List Event) : (s.takeRequest p).m = s.m := rfl
@[simp] theorem State.takeRequest_phase (s : State) (p : List Event) : (s.takeRequest p).phase = s.phase := rfl
@[simp] theorem State.takeRequest_off (s : State) (p : List Event) : (s.takeRequest p).off = s.off := rfl
@[simp] theorem State.takeRequest_rc (s : State) (p : List Event) : (s.takeRequest p).rc = s.rc := rfl
@[simp] theorem State.takeRequest_cr (s : State) (p : List Event) : (s.takeRequest p).cr = s.cr := rfl
@[simp] theorem State.takeRequest_dr (s : State) (p : List Event) : (s.takeRequest p).dr = s.dr := rfl
@[simp] theorem State.takeRequest_last (s : State) (p : List Event) : (s.takeRequest p).last = s.last := rfl
@[simp] theorem State.takeRequest_done (s : State) (p : List Event) : (s.takeRequest p).done = s.done := rfl
@[simp] theorem State.takeRequest_error (s : State) (p : List Event) : (s.takeRequest p).error = s.error := rfl
@[simp] theorem State.takeRequest_err (s : State) (p : List Event) : (s.takeRequest p).err = s.err := rfl
@[simp] theorem State.takeRequest_result (s : State) (p : List Event) : (s.takeRequest p).result = s.result := rfl
@[simp] theorem State.takeRequest_keyLen (s : State) (p : List Event) : (s.takeRequest p).keyLen = s.keyLen := rfl
@[simp] theorem State.takeRequest_msgLen (s : State) (p : List Event) : (s.takeRequest p).msgLen = s.msgLen := rfl
@[simp] theorem State.takeRequest_c (s : State) (p : List Event) : (s.takeRequest p).c = s.c := rfl
@[simp] theorem State.takeRequest_d (s : State) (p : List Event) : (s.takeRequest p).d = s.d := rfl
@[simp] theorem State.takeRequest_key (s : State) (p : List Event) : (s.takeRequest p).key = s.key := rfl
@[simp] theorem State.takeRequest_msg (s : State) (p : List Event) : (s.takeRequest p).msg = s.msg := rfl
@[simp] theorem State.takeRequest_msgCap (s : State) (p : List Event) : (s.takeRequest p).msgCap = s.msgCap := rfl
@[simp] theorem State.takeRequest_draws (s : State) (p : List Event) : (s.takeRequest p).draws = s.draws := rfl
@[simp] theorem State.takeRequest_port (s : State) (p : List Event) : (s.takeRequest p).port = p := rfl
@[simp] theorem State.takeRequest_rdata (s : State) (p : List Event) : (s.takeRequest p).rdata = none := rfl

/-! ### setWords -/

@[simp] theorem State.setWords_v0 (s : State) (w : Words) : (s.setWords w).v0 = w.v0 := rfl
@[simp] theorem State.setWords_v1 (s : State) (w : Words) : (s.setWords w).v1 = w.v1 := rfl
@[simp] theorem State.setWords_v2 (s : State) (w : Words) : (s.setWords w).v2 = w.v2 := rfl
@[simp] theorem State.setWords_v3 (s : State) (w : Words) : (s.setWords w).v3 = w.v3 := rfl
@[simp] theorem State.setWords_m (s : State) (w : Words) : (s.setWords w).m = s.m := rfl
@[simp] theorem State.setWords_phase (s : State) (w : Words) : (s.setWords w).phase = s.phase := rfl
@[simp] theorem State.setWords_off (s : State) (w : Words) : (s.setWords w).off = s.off := rfl
@[simp] theorem State.setWords_rc (s : State) (w : Words) : (s.setWords w).rc = s.rc := rfl
@[simp] theorem State.setWords_cr (s : State) (w : Words) : (s.setWords w).cr = s.cr := rfl
@[simp] theorem State.setWords_dr (s : State) (w : Words) : (s.setWords w).dr = s.dr := rfl
@[simp] theorem State.setWords_last (s : State) (w : Words) : (s.setWords w).last = s.last := rfl
@[simp] theorem State.setWords_done (s : State) (w : Words) : (s.setWords w).done = s.done := rfl
@[simp] theorem State.setWords_error (s : State) (w : Words) : (s.setWords w).error = s.error := rfl
@[simp] theorem State.setWords_err (s : State) (w : Words) : (s.setWords w).err = s.err := rfl
@[simp] theorem State.setWords_result (s : State) (w : Words) : (s.setWords w).result = s.result := rfl
@[simp] theorem State.setWords_keyLen (s : State) (w : Words) : (s.setWords w).keyLen = s.keyLen := rfl
@[simp] theorem State.setWords_msgLen (s : State) (w : Words) : (s.setWords w).msgLen = s.msgLen := rfl
@[simp] theorem State.setWords_c (s : State) (w : Words) : (s.setWords w).c = s.c := rfl
@[simp] theorem State.setWords_d (s : State) (w : Words) : (s.setWords w).d = s.d := rfl
@[simp] theorem State.setWords_key (s : State) (w : Words) : (s.setWords w).key = s.key := rfl
@[simp] theorem State.setWords_msg (s : State) (w : Words) : (s.setWords w).msg = s.msg := rfl
@[simp] theorem State.setWords_msgCap (s : State) (w : Words) : (s.setWords w).msgCap = s.msgCap := rfl
@[simp] theorem State.setWords_draws (s : State) (w : Words) : (s.setWords w).draws = s.draws := rfl
@[simp] theorem State.setWords_port (s : State) (w : Words) : (s.setWords w).port = s.port := rfl
@[simp] theorem State.setWords_rdata (s : State) (w : Words) : (s.setWords w).rdata = s.rdata := rfl

/-! ### Reset (spec/10_state.md R49) -/

@[simp] theorem State.resetEvent_eq (s : State) : s.resetEvent =
    { State.resetWith s.msgCap with draws := s.draws, port := s.port, rdata := s.rdata } := rfl

/-! ### Words -/

@[simp] theorem State.words_v0 (s : State) : s.words.v0 = s.v0 := rfl
@[simp] theorem State.words_v1 (s : State) : s.words.v1 = s.v1 := rfl
@[simp] theorem State.words_v2 (s : State) : s.words.v2 = s.v2 := rfl
@[simp] theorem State.words_v3 (s : State) : s.words.v3 = s.v3 := rfl

@[simp] theorem State.words_setWords (s : State) (w : Words) : (s.setWords w).words = w := rfl

end Sys2Proof.Machine
end

