-- ==== Sys2Proof/Laws/Buffers.lean ====
section
/-! SUPPORT. The laws of the buffers: a read after a write, the canonical form, the bound. -/

namespace Sys2Proof.Machine

open Sys2Proof

/-! ### Reading after writing -/

theorem Buffer.read?_write (b : Buffer) (a : Nat) (v : Byte) (x : Nat) :
    (b.write a v).read? x = if x = a then some v else b.read? x := by
  induction b with
  | nil => simp [Buffer.write, Buffer.read?, eq_comm (a := a)]
  | cons cell rest ih =>
    obtain ⟨y, u⟩ := cell
    rcases Nat.lt_trichotomy a y with h | h | h
    · simp [Buffer.write, Buffer.read?, h, eq_comm (a := a)]
    · subst h
      by_cases hx : a = x <;> simp [Buffer.write, Buffer.read?, hx, eq_comm (a := x)]
    · have h1 : ¬ a < y := by omega
      have h2 : a ≠ y := by omega
      by_cases hx : x = a
      · subst hx
        simp [Buffer.write, Buffer.read?, h1, h2, h2.symm, ih]
      · simp [Buffer.write, Buffer.read?, h1, h2, ih, hx]

@[simp] theorem Buffer.read?_write_same (b : Buffer) (a : Nat) (v : Byte) : (b.write a v).read? a = some v := by
  simp [Buffer.read?_write]

theorem Buffer.read?_write_other (b : Buffer) (a : Nat) (v : Byte) (x : Nat) (h : x ≠ a) :
    (b.write a v).read? x = b.read? x := by
  simp [Buffer.read?_write, h]

/-- A byte that has been written is read as written, whatever the draw. -/
theorem Buffer.readByte_of_some {b : Buffer} {a : Nat} {v : Byte} (h : b.read? a = some v) (draw : Nat) :
    b.readByte a draw = v := by
  simp [Buffer.readByte, h]

/-! ### The canonical form -/

theorem Buffer.risingFrom_write (b : Buffer) (lo : Option Nat) (a : Nat) (v : Byte)
    (h : b.risingFrom lo = true) (ha : ∀ l, lo = some l → l < a) : (b.write a v).risingFrom lo = true := by
  induction b generalizing lo with
  | nil => cases lo <;> simp_all [Buffer.write, Buffer.risingFrom]
  | cons cell rest ih =>
    obtain ⟨y, u⟩ := cell
    have hlo : ∀ l, lo = some l → l < y := by
      intro l hl
      subst hl
      simp [Buffer.risingFrom] at h
      exact h.1
    have hrest : Buffer.risingFrom (some y) rest = true := by
      cases lo <;> simp_all [Buffer.risingFrom]
    have cons_ok : ∀ (z : Nat) (w : Byte) (t : Buffer), (∀ l, lo = some l → l < z) →
        Buffer.risingFrom (some z) t = true → Buffer.risingFrom lo ((z, w) :: t) = true := by
      intro z w t hz ht
      cases lo with
      | none => simpa [Buffer.risingFrom] using ht
      | some l => simp [Buffer.risingFrom, ht, hz l rfl]
    unfold Buffer.write
    split_ifs with h1 h2
    · exact cons_ok _ _ _ ha (by simp [Buffer.risingFrom, h1, hrest])
    · subst h2
      exact cons_ok _ _ _ ha hrest
    · refine cons_ok _ _ _ hlo (ih (some y) hrest ?_)
      intro l hl
      cases hl
      omega

/-- A write keeps the canonical form. -/
theorem Buffer.wf_write {b : Buffer} (h : b.wf = true) (a : Nat) (v : Byte) : (b.write a v).wf = true :=
  Buffer.risingFrom_write b none a v h (by simp)

/-- A write inside the bound keeps the bound. -/
theorem Buffer.below_write {b : Buffer} {n : Nat} (h : b.below n = true) {a : Nat} (ha : a < n) (v : Byte) :
    (b.write a v).below n = true := by
  induction b with
  | nil => simp [Buffer.write, Buffer.below, ha]
  | cons cell rest ih =>
    obtain ⟨y, u⟩ := cell
    simp only [Buffer.below, List.all_cons, Bool.and_eq_true, decide_eq_true_eq] at h ih ⊢
    unfold Buffer.write
    split_ifs with h1 h2
    · simp only [List.all_cons, Bool.and_eq_true, decide_eq_true_eq]
      exact ⟨ha, h.1, h.2⟩
    · simp only [List.all_cons, Bool.and_eq_true, decide_eq_true_eq]
      exact ⟨ha, h.2⟩
    · simp only [List.all_cons, Bool.and_eq_true, decide_eq_true_eq]
      exact ⟨h.1, ih h.2⟩

/-- No byte outside the bound is listed. -/
theorem Buffer.read?_of_below {b : Buffer} {n a : Nat} (h : b.below n = true) (ha : n ≤ a) : b.read? a = none := by
  induction b with
  | nil => rfl
  | cons cell rest ih =>
    obtain ⟨y, u⟩ := cell
    simp only [Buffer.below, List.all_cons, Bool.and_eq_true, decide_eq_true_eq] at h ih
    have : y ≠ a := by omega
    simp [Buffer.read?, this, ih h.2]

/-! ### The host's byte write (spec/20_memory.md R66) -/

theorem State.memWrite_busy {s : State} (h : s.busy = true) (sp : Space) (addr wdata : Word) :
    s.memWrite sp addr wdata = s := by
  simp [State.memWrite, h]

theorem State.memWrite_outside {s : State} {sp : Space} {addr : Word} (h : s.capacity sp ≤ addr.toNat) (wdata : Word) :
    s.memWrite sp addr wdata = s := by
  simp [State.memWrite, Nat.not_lt.mpr h]

/-- Everything a host byte write can do. -/
theorem State.memWrite_cases (s : State) (sp : Space) (addr wdata : Word) :
    (s.memWrite sp addr wdata = s ∧ (s.busy = true ∨ s.capacity sp ≤ addr.toNat)) ∨
    (s.busy = false ∧ addr.toNat < s.capacity sp ∧
      s.memWrite sp addr wdata = s.setBuffer sp ((s.buffer sp).write addr.toNat (lowByte wdata))) := by
  by_cases hb : s.busy = true
  · exact .inl ⟨State.memWrite_busy hb sp addr wdata, .inl hb⟩
  · by_cases ha : addr.toNat < s.capacity sp
    · exact .inr ⟨by simpa using hb, ha, by simp [State.memWrite, hb, ha]⟩
    · exact .inl ⟨State.memWrite_outside (by omega) wdata, .inr (by omega)⟩

end Sys2Proof.Machine
end

