-- ==== Sys2Proof/Laws/Codec.lean ====
section
/-! SUPPORT. The Word Codec: which bits a little-endian read sets, and everything MemRead can do (spec/40_word_codec.md). -/

namespace Sys2Proof.Machine

open Sys2Proof

/-- Bit j of the assembled word is bit j mod 8 of byte j / 8, for the bytes read; 0 above them (R120). -/
theorem getLsbD_leWord (f : Nat → Byte) (n j : Nat) (hn : n ≤ 8) :
    (leWord f n).getLsbD j = (decide (j < 8 * n) && (f (j / 8)).getLsbD (j % 8)) := by
  induction n with
  | zero => simp [leWord]
  | succ n ih =>
    rw [leWord, BitVec.getLsbD_or, ih (by omega), BitVec.getLsbD_shiftLeft, zextByte, BitVec.getLsbD_setWidth]
    rcases Nat.lt_trichotomy (j / 8) n with h | h | h
    · have h1 : j < 8 * n := by omega
      have h2 : j < 8 * (n + 1) := by omega
      simp [h1, h2]
    · have h1 : ¬ j < 8 * n := by omega
      have h2 : j < 8 * (n + 1) := by omega
      have h3 : j - 8 * n = j % 8 := by omega
      have h4 : j < 64 := by omega
      have h5 : j % 8 < 64 := by omega
      simp [h1, h2, h3, h4, h5, h]
    · have h1 : ¬ j < 8 * n := by omega
      have h2 : ¬ j < 8 * (n + 1) := by omega
      have h3 : 8 ≤ j - 8 * n := by omega
      simp [h1, h2, BitVec.getLsbD_of_ge _ _ h3]

/-- The word depends on the bytes read alone. -/
theorem leWord_congr {f g : Nat → Byte} {n : Nat} (h : ∀ i, i < n → f i = g i) : leWord f n = leWord g n := by
  induction n with
  | zero => rfl
  | succ n ih => rw [leWord, leWord, ih fun i hi => h i (by omega), h n (by omega)]

/-- MemRead raises exactly when the read would end past the capacity (R121). -/
theorem State.memRead_error {s : State} {sp : Space} {a n : Nat} (h : s.capacity sp < a + n) :
    s.memRead sp a n = .error .internalExtractionFailure := by
  simp [State.memRead, h]

/-- Otherwise it reads, and changes nothing but the draws (R68). -/
theorem State.memRead_ok {s : State} {sp : Space} {a n : Nat} (h : a + n ≤ s.capacity sp) :
    s.memRead sp a n =
      .ok (leWord (fun i => (s.buffer sp).readByte (a + i) (s.draws + i)) n, s.advanceDraws n) := by
  simp [State.memRead, Nat.not_lt.mpr h]

/-- Everything MemRead can do. -/
theorem State.memRead_cases (s : State) (sp : Space) (a n : Nat) :
    (s.capacity sp < a + n ∧ s.memRead sp a n = .error .internalExtractionFailure) ∨
    (a + n ≤ s.capacity sp ∧ s.memRead sp a n =
      .ok (leWord (fun i => (s.buffer sp).readByte (a + i) (s.draws + i)) n, s.advanceDraws n)) := by
  rcases Nat.lt_or_ge (s.capacity sp) (a + n) with h | h
  · exact .inl ⟨h, State.memRead_error h⟩
  · exact .inr ⟨h, State.memRead_ok h⟩

end Sys2Proof.Machine
end

