-- ==== Sys2Proof/Laws/Exec.lean ====
section
/-! SUPPORT. For each meaning, one lemma that says everything it can do. The micro-operations XIN, CRND, XFF, FRND, FOLD
are their own equations. -/

namespace Sys2Proof.Machine

open Sys2Proof

/-- INIT reads both key words and completes (R140): neither read can raise (R122). -/
theorem execInit_eq (s : State) : execInit s =
    .next { (s.advanceDraws 16).setWords (initWords
        (leWord (fun i => s.key.readByte i (s.draws + i)) 8)
        (leWord (fun i => s.key.readByte (8 + i) (s.draws + 8 + i)) 8)) with
      m := 0#64, off := 0#64, rc := 0#64, last := false, phase := s.nextLoad 0#64 } := by
  simp [execInit, State.memRead, State.capacity, State.buffer, State.advanceDraws, State.setWords]

/-- Everything LDBLK can do (R142). -/
theorem execLdblk_cases (s : State) :
    (s.msgCap.toNat < s.off.toNat + 8 ∧ execLdblk s = .next (s.errorEntry .internalExtractionFailure)) ∨
    (s.off.toNat + 8 ≤ s.msgCap.toNat ∧ execLdblk s =
      .next { s.advanceDraws 8 with
        m := leWord (fun i => s.msg.readByte (s.off.toNat + i) (s.draws + i)) 8
        last := false, phase := Phase.xin }) := by
  rcases State.memRead_cases s .msg s.off.toNat 8 with ⟨h, e⟩ | ⟨h, e⟩
  · exact .inl ⟨h, by simp [execLdblk, e]⟩
  · exact .inr ⟨h, by simp [execLdblk, e, State.buffer]⟩

/-- Everything LDTAIL can do (R160); the third case is one that no run reaches. -/
theorem execLdtail_cases (s : State) :
    (s.msgCap.toNat < s.msgLen.toNat ∧ execLdtail s = .next (s.errorEntry .internalExtractionFailure)) ∨
    (s.msgLen.toNat ≤ s.msgCap.toNat ∧ (s.off.toNat ≤ s.msgLen.toNat ∧ s.msgLen.toNat - s.off.toNat ≤ 7) ∧
      execLdtail s = .next { s.advanceDraws (s.msgLen.toNat - s.off.toNat) with
        m := lengthTag s.msgLen ||| leWord (fun i => s.msg.readByte (s.off.toNat + i) (s.draws + i))
          (s.msgLen.toNat - s.off.toNat)
        last := true, phase := Phase.xin }) ∨
    (s.msgLen.toNat ≤ s.msgCap.toNat ∧ ¬ (s.off.toNat ≤ s.msgLen.toNat ∧ s.msgLen.toNat - s.off.toNat ≤ 7) ∧
      execLdtail s = .next { s with
        m := lengthTag s.msgLen ||| Config.freeTail s.off s.msgLen, last := true, phase := Phase.xin }) := by
  by_cases hin : s.off.toNat ≤ s.msgLen.toNat ∧ s.msgLen.toNat - s.off.toNat ≤ 7
  · have he : s.off.toNat + (s.msgLen.toNat - s.off.toNat) = s.msgLen.toNat := by omega
    rcases State.memRead_cases s .msg s.off.toNat (s.msgLen.toNat - s.off.toNat) with ⟨h, e⟩ | ⟨h, e⟩
    · rw [he] at h
      exact .inl ⟨h, by simp only [execLdtail, State.tailRead, if_pos hin, e]⟩
    · rw [he] at h
      exact .inr (.inl ⟨h, hin, by simp only [execLdtail, State.tailRead, if_pos hin, e, State.buffer]⟩)
  · by_cases hc : s.msgCap.toNat < s.msgLen.toNat
    · exact .inl ⟨hc, by simp only [execLdtail, State.tailRead, if_neg hin, if_pos hc]⟩
    · exact .inr (.inr ⟨by omega, hin, by simp only [execLdtail, State.tailRead, if_neg hin, if_neg hc]⟩)

/-- Everything XOUT can do (R145). -/
theorem execXout_cases (s : State) :
    (s.last = true ∧ execXout s = .next { s with v0 := s.v0 ^^^ s.m, phase := Phase.xff }) ∨
    (s.last = false ∧ execXout s =
      .next { s with v0 := s.v0 ^^^ s.m, off := s.off + 8#64, phase := s.nextLoad (s.off + 8#64) }) := by
  cases h : s.last
  · exact .inr ⟨rfl, by simp [execXout, h]⟩
  · exact .inl ⟨rfl, by simp [execXout, h]⟩

/-- The successor `next_load` writes is one of the two loads, by its test (R29). -/
theorem State.nextLoad_cases (s : State) (o : Word) (ho : o.toNat ≤ s.msgLen.toNat) :
    (8 ≤ s.msgLen.toNat - o.toNat ∧ s.nextLoad o = Phase.ldblk) ∨
    (s.msgLen.toNat - o.toNat ≤ 7 ∧ s.nextLoad o = Phase.ldtail) := by
  by_cases h : 8 ≤ s.msgLen.toNat - o.toNat
  · exact .inl ⟨h, by simp [State.nextLoad, ho, h]⟩
  · exact .inr ⟨by omega, by simp [State.nextLoad, ho, h]⟩

/-- INIT's successor (R140). -/
theorem State.nextLoad_zero (s : State) : s.nextLoad 0#64 = if 8 ≤ s.msgLen.toNat then Phase.ldblk else Phase.ldtail := by
  simp [State.nextLoad]

/-- Whatever the offset, one of the two loads. -/
theorem State.nextLoad_mem (s : State) (o : Word) : s.nextLoad o = Phase.ldblk ∨ s.nextLoad o = Phase.ldtail := by
  unfold State.nextLoad
  split_ifs <;> simp

/-- Everything acceptance can do (R184). -/
theorem State.accept_cases (s : State) (op : Op) :
    (s.keyLen ≠ 16#64 ∧ s.accept op = s.clearOutcome.errorEntry .invalidKeyLength) ∨
    (s.keyLen = 16#64 ∧ (s.countC op = 0#64 ∨ s.countD op = 0#64) ∧
      s.accept op = s.clearOutcome.errorEntry .invalidRoundCount) ∨
    (s.keyLen = 16#64 ∧ s.countC op ≠ 0#64 ∧ s.countD op ≠ 0#64 ∧
      s.accept op = { s.clearOutcome with cr := s.countC op, dr := s.countD op, phase := Phase.init }) := by
  by_cases hk : s.keyLen = 16#64
  · by_cases hc : s.countC op = 0#64 ∨ s.countD op = 0#64
    · exact .inr (.inl ⟨hk, hc, by simp [State.accept, hk, hc]⟩)
    · obtain ⟨h1, h2⟩ := not_or.mp hc
      exact .inr (.inr ⟨hk, h1, h2, by simp [State.accept, hk, h1, h2]⟩)
  · exact .inl ⟨hk, by simp [State.accept, hk]⟩

/-- A host write is dropped while the engine is busy (R250). -/
theorem execHash_busy {s : State} (h : s.busy = true) : execHash s = .next s := by simp [execHash, h]
theorem execHash24_busy {s : State} (h : s.busy = true) : execHash24 s = .next s := by simp [execHash24, h]
theorem execCsrw_busy {s : State} (h : s.busy = true) (addr wdata : Word) : execCsrw addr wdata s = .next s := by
  simp [execCsrw, h]
theorem execKeyw_busy {s : State} (h : s.busy = true) (addr wdata : Word) : execKeyw addr wdata s = .next s := by
  simp [execKeyw, State.memWrite_busy h]
theorem execMsgw_busy {s : State} (h : s.busy = true) (addr wdata : Word) : execMsgw addr wdata s = .next s := by
  simp [execMsgw, State.memWrite_busy h]

/-- In IDLE a command is accepted (R184). -/
theorem execHash_idle {s : State} (h : s.busy = false) : execHash s = .next (s.accept .hash) := by simp [execHash, h]
theorem execHash24_idle {s : State} (h : s.busy = false) : execHash24 s = .next (s.accept .hash24) := by
  simp [execHash24, h]

/-- A configuration write touches the four configuration CSRs alone (R191). -/
theorem State.configWrite_cases (s : State) (addr wdata : Word) :
    (addr = Csr.keyLen ∧ s.configWrite addr wdata = { s with keyLen := wdata }) ∨
    (addr = Csr.msgLen ∧ s.configWrite addr wdata = { s with msgLen := wdata }) ∨
    (addr = Csr.c ∧ s.configWrite addr wdata = { s with c := wdata }) ∨
    (addr = Csr.d ∧ s.configWrite addr wdata = { s with d := wdata }) ∨
    (addr ≠ Csr.keyLen ∧ addr ≠ Csr.msgLen ∧ addr ≠ Csr.c ∧ addr ≠ Csr.d ∧ s.configWrite addr wdata = s) := by
  unfold State.configWrite
  split_ifs with h1 h2 h3 h4 <;> simp_all

/-- The word written to CMD (R35, R106). -/
theorem decodeCmd_cases (w : Word) :
    (w = Op.hash.word ∧ decodeCmd w = .ok .hash) ∨ (w = Op.hash24.word ∧ decodeCmd w = .ok .hash24) ∨
    (w ≠ Op.hash.word ∧ w ≠ Op.hash24.word ∧ decodeCmd w = .error .reservedCommand) := by
  unfold decodeCmd
  split_ifs with h1 h2 <;> simp_all

/-- Everything CSRW can do in IDLE (R191). -/
theorem execCsrw_idle_cases {s : State} (h : s.busy = false) (addr wdata : Word) :
    (addr = Csr.cmd ∧ ∃ op, wdata = op.word ∧ execCsrw addr wdata s = .next (s.accept op)) ∨
    (addr = Csr.cmd ∧ wdata ≠ Op.hash.word ∧ wdata ≠ Op.hash24.word ∧ execCsrw addr wdata s = .next s) ∨
    (addr ≠ Csr.cmd ∧ execCsrw addr wdata s = .next (s.configWrite addr wdata)) := by
  by_cases ha : addr = Csr.cmd
  · rcases decodeCmd_cases wdata with ⟨hw, e⟩ | ⟨hw, e⟩ | ⟨h1, h2, e⟩
    · exact .inl ⟨ha, .hash, hw, by simp [execCsrw, h, ha, e]⟩
    · exact .inl ⟨ha, .hash24, hw, by simp [execCsrw, h, ha, e]⟩
    · exact .inr (.inl ⟨ha, h1, h2, by simp [execCsrw, h, ha, e]⟩)
  · exact .inr (.inr ⟨ha, by simp [execCsrw, h, ha]⟩)

/-- No instruction stops: every meaning answers a next state. -/
theorem exec_next (i : Instr) (s : State) : ∃ t, exec i s = .next t := by
  cases i with
  | csrw addr wdata =>
    simp only [exec]
    cases h : s.busy
    · rcases execCsrw_idle_cases h addr wdata with ⟨_, _, _, e⟩ | ⟨_, _, _, e⟩ | ⟨_, e⟩ <;> exact ⟨_, e⟩
    · exact ⟨_, execCsrw_busy h addr wdata⟩
  | init => exact ⟨_, execInit_eq s⟩
  | ldblk => rcases execLdblk_cases s with ⟨_, e⟩ | ⟨_, e⟩ <;> exact ⟨_, e⟩
  | ldtail => rcases execLdtail_cases s with ⟨_, e⟩ | ⟨_, _, e⟩ | ⟨_, _, e⟩ <;> exact ⟨_, e⟩
  | xout => rcases execXout_cases s with ⟨_, e⟩ | ⟨_, e⟩ <;> exact ⟨_, e⟩
  | _ => exact ⟨_, rfl⟩

end Sys2Proof.Machine
end

