-- ==== Sys2Proof/Laws/Step.lean ====
section
/-! SUPPORT. Everything a step can do, said once: one equation per event and phase, and one inversion lemma. -/

namespace Sys2Proof.Machine

open Sys2Proof

/-! ### The decoders, case by case -/

/-- The micro-operation each phase code selects (spec/10_state.md R27). -/
theorem decodeUop_cases (p : PhaseCode) :
    (p = Phase.idle ∧ decodeUop p = .error .idlePhase) ∨ (p = Phase.init ∧ decodeUop p = .ok .init) ∨
    (p = Phase.ldblk ∧ decodeUop p = .ok .ldblk) ∨ (p = Phase.ldtail ∧ decodeUop p = .ok .ldtail) ∨
    (p = Phase.xin ∧ decodeUop p = .ok .xin) ∨ (p = Phase.crnd ∧ decodeUop p = .ok .crnd) ∨
    (p = Phase.xout ∧ decodeUop p = .ok .xout) ∨ (p = Phase.xff ∧ decodeUop p = .ok .xff) ∨
    (p = Phase.frnd ∧ decodeUop p = .ok .frnd) ∨ (p = Phase.fold ∧ decodeUop p = .ok .fold) ∨
    (10 ≤ p.toNat ∧ decodeUop p = .error .reservedPhase) := by
  revert p
  decide

/-- Everything a CSRW request decodes to (R105). -/
theorem decodeCsrw_cases (addr wdata : Word) :
    (addr = 0#64 ∧ wdata = Op.hash.word ∧ decodeCsrw addr wdata = .hash) ∨
    (addr = 0#64 ∧ wdata = Op.hash24.word ∧ decodeCsrw addr wdata = .hash24) ∨
    (¬ (addr = 0#64 ∧ (wdata = Op.hash.word ∨ wdata = Op.hash24.word)) ∧
      decodeCsrw addr wdata = .csrw addr wdata) := by
  by_cases ha : addr = 0#64
  · rcases decodeCmd_cases wdata with ⟨h, e⟩ | ⟨h, e⟩ | ⟨h1, h2, e⟩
    · exact .inl ⟨ha, h, by simp [decodeCsrw, ha, e, Op.instr]⟩
    · exact .inr (.inl ⟨ha, h, by simp [decodeCsrw, ha, e, Op.instr]⟩)
    · exact .inr (.inr ⟨by simp [h1, h2], by simp [decodeCsrw, ha, e]⟩)
  · exact .inr (.inr ⟨by simp [ha], by simp [decodeCsrw, ha]⟩)

/-- The request each kind selects (R91, R107). -/
theorem decodeReq_cases (w : ReqWord) :
    (reqKind w = Kind.csrr ∧ decodeReq w = .ok (.csrr (reqAddr w))) ∨
    (reqKind w = Kind.csrw ∧ decodeReq w = .ok (decodeCsrw (reqAddr w) (reqData w))) ∨
    (reqKind w = Kind.keyw ∧ decodeReq w = .ok (.keyw (reqAddr w) (reqData w))) ∨
    (reqKind w = Kind.msgw ∧ decodeReq w = .ok (.msgw (reqAddr w) (reqData w))) ∨
    (reqKind w = Kind.keyRead ∧ decodeReq w = .error .reservedKeyRead) ∨
    (reqKind w = Kind.msgRead ∧ decodeReq w = .error .reservedMsgRead) ∨
    (reqKind w = Kind.spaceRead ∧ decodeReq w = .error .reservedSpaceRead) ∨
    (reqKind w = Kind.spaceWrite ∧ decodeReq w = .error .reservedSpaceWrite) := by
  have all : ∀ k : BitVec 3, k = Kind.csrr ∨ k = Kind.csrw ∨ k = Kind.keyw ∨ k = Kind.msgw ∨ k = Kind.keyRead ∨
      k = Kind.msgRead ∨ k = Kind.spaceRead ∨ k = Kind.spaceWrite := by decide
  rcases all (reqKind w) with h | h | h | h | h | h | h | h
  · exact .inl ⟨h, by rw [decodeReq, h]; rfl⟩
  · exact .inr (.inl ⟨h, by rw [decodeReq, h]; rfl⟩)
  · exact .inr (.inr (.inl ⟨h, by rw [decodeReq, h]; rfl⟩))
  · exact .inr (.inr (.inr (.inl ⟨h, by rw [decodeReq, h]; rfl⟩)))
  · exact .inr (.inr (.inr (.inr (.inl ⟨h, by rw [decodeReq, h]; rfl⟩))))
  · exact .inr (.inr (.inr (.inr (.inr (.inl ⟨h, by rw [decodeReq, h]; rfl⟩)))))
  · exact .inr (.inr (.inr (.inr (.inr (.inr (.inl ⟨h, by rw [decodeReq, h]; rfl⟩))))))
  · exact .inr (.inr (.inr (.inr (.inr (.inr (.inr ⟨h, by rw [decodeReq, h]; rfl⟩))))))

/-! ### The fields of a packed word (R90) -/

@[simp] theorem reqKind_packReq (k : BitVec 3) (a d : Word) : reqKind (packReq k a d) = k := by
  ext i hi
  simp only [reqKind, packReq, BitVec.getElem_extractLsb', BitVec.getLsbD_append]
  have h1 : ¬ 128 + i < 64 := by omega
  have h2 : ¬ 128 + i - 64 < 64 := by omega
  have h3 : 128 + i - 64 - 64 = i := by omega
  simp only [h1, h2, h3, if_false, BitVec.getLsbD_eq_getElem hi]

@[simp] theorem reqAddr_packReq (k : BitVec 3) (a d : Word) : reqAddr (packReq k a d) = a := by
  ext i hi
  simp only [reqAddr, packReq, BitVec.getElem_extractLsb', BitVec.getLsbD_append]
  have h1 : ¬ 64 + i < 64 := by omega
  have h2 : 64 + i - 64 = i := by omega
  simp only [h1, h2, hi, if_false, if_true, BitVec.getLsbD_eq_getElem hi]

@[simp] theorem reqData_packReq (k : BitVec 3) (a d : Word) : reqData (packReq k a d) = d := by
  ext i hi
  simp only [reqData, packReq, BitVec.getElem_extractLsb', BitVec.getLsbD_append]
  simp [hi]

/-- A word is its three fields. -/
theorem packReq_fields (w : ReqWord) : packReq (reqKind w) (reqAddr w) (reqData w) = w := by
  apply BitVec.eq_of_getLsbD_eq
  intro i hi
  simp only [reqKind, reqAddr, reqData, packReq, BitVec.getLsbD_append, BitVec.getLsbD_extractLsb']
  by_cases h1 : i < 64
  · simp [h1]
  · by_cases h2 : i - 64 < 64
    · have h3 : 64 + (i - 64) = i := by omega
      simp [h1, h2, h3]
    · have h3 : i - 64 - 64 < 3 := by omega
      have h4 : 128 + (i - 64 - 64) = i := by omega
      simp [h1, h2, h3, h4]

/-! ### A packed word decodes by its kind -/

@[simp] theorem decodeReq_csrr (a d : Word) : decodeReq (packReq Kind.csrr a d) = .ok (.csrr a) := by
  rw [decodeReq, reqKind_packReq, reqAddr_packReq]
  rfl

@[simp] theorem decodeReq_csrw (a d : Word) : decodeReq (packReq Kind.csrw a d) = .ok (decodeCsrw a d) := by
  rw [decodeReq, reqKind_packReq, reqAddr_packReq, reqData_packReq]
  rfl

@[simp] theorem decodeReq_keyw (a d : Word) : decodeReq (packReq Kind.keyw a d) = .ok (.keyw a d) := by
  rw [decodeReq, reqKind_packReq, reqAddr_packReq, reqData_packReq]
  rfl

@[simp] theorem decodeReq_msgw (a d : Word) : decodeReq (packReq Kind.msgw a d) = .ok (.msgw a d) := by
  rw [decodeReq, reqKind_packReq, reqAddr_packReq, reqData_packReq]
  rfl

@[simp] theorem decodeReq_keyRead (a d : Word) : decodeReq (packReq Kind.keyRead a d) = .error .reservedKeyRead := by
  rw [decodeReq, reqKind_packReq]
  rfl

@[simp] theorem decodeReq_msgRead (a d : Word) : decodeReq (packReq Kind.msgRead a d) = .error .reservedMsgRead := by
  rw [decodeReq, reqKind_packReq]
  rfl

@[simp] theorem decodeReq_spaceRead (a d : Word) : decodeReq (packReq Kind.spaceRead a d) = .error .reservedSpaceRead := by
  rw [decodeReq, reqKind_packReq]
  rfl

@[simp] theorem decodeReq_spaceWrite (a d : Word) : decodeReq (packReq Kind.spaceWrite a d) = .error .reservedSpaceWrite := by
  rw [decodeReq, reqKind_packReq]
  rfl

/-! ### One equation per event -/

theorem step_nil {s : State} (h : s.port = []) : step s = engineTurn s := by
  simp [step, nextEvent, h]

theorem step_engine {s : State} {rest : List Event} (h : s.port = .engine :: rest) :
    step s = engineTurn (s.setPort rest) := by
  simp [step, nextEvent, h]

theorem step_request {s : State} {w : ReqWord} {rest : List Event} (h : s.port = .request w :: rest) :
    step s = serveRequest w (s.takeRequest rest) := by
  simp [step, nextEvent, h]

theorem step_reset {s : State} {rest : List Event} (h : s.port = .reset :: rest) :
    step s = .next (s.setPort rest).resetEvent := by
  simp [step, nextEvent, h]

theorem serveRequest_ok {w : ReqWord} {i : Instr} (h : decodeReq w = .ok i) (s : State) :
    serveRequest w s = exec i s := by
  simp [serveRequest, decode, h]

theorem serveRequest_error {w : ReqWord} {r : Rejection} (h : decodeReq w = .error r) (s : State) :
    serveRequest w s = .next (s.reservedRequest r) := by
  simp [serveRequest, decode, h]

theorem engineTurn_ok {s : State} {i : Instr} (h : decodeUop s.phase = .ok i) : engineTurn s = exec i s := by
  simp [engineTurn, decode, h]

theorem engineTurn_idle {s : State} (h : s.phase = Phase.idle) : engineTurn s = .next s := by
  simp [engineTurn, decode, h, decodeUop]

theorem engineTurn_reserved {s : State} (h : 10 ≤ s.phase.toNat) : engineTurn s = .fault .reservedPhase := by
  rcases decodeUop_cases s.phase with ⟨e, _⟩ | ⟨e, _⟩ | ⟨e, _⟩ | ⟨e, _⟩ | ⟨e, _⟩ | ⟨e, _⟩ | ⟨e, _⟩ | ⟨e, _⟩ | ⟨e, _⟩ |
    ⟨e, _⟩ | ⟨_, e⟩
  all_goals first
    | (rw [e] at h; exact absurd h (by decide))
    | simp [engineTurn, decode, e]

/-- A served request is a decoded instruction, a read answered 0, or a dropped write. -/
theorem serveRequest_cases (w : ReqWord) (s : State) :
    (∃ i, decodeReq w = .ok i ∧ serveRequest w s = exec i s) ∨
    (∃ r, decodeReq w = .error r ∧ serveRequest w s = .next (s.respond 0#64)) ∨
    (decodeReq w = .error .reservedSpaceWrite ∧ serveRequest w s = .next s) := by
  rcases decodeReq_cases w with ⟨_, e⟩ | ⟨_, e⟩ | ⟨_, e⟩ | ⟨_, e⟩ | ⟨_, e⟩ | ⟨_, e⟩ | ⟨_, e⟩ | ⟨_, e⟩
  · exact .inl ⟨_, e, serveRequest_ok e s⟩
  · exact .inl ⟨_, e, serveRequest_ok e s⟩
  · exact .inl ⟨_, e, serveRequest_ok e s⟩
  · exact .inl ⟨_, e, serveRequest_ok e s⟩
  · exact .inr (.inl ⟨_, e, serveRequest_error e s⟩)
  · exact .inr (.inl ⟨_, e, serveRequest_error e s⟩)
  · exact .inr (.inl ⟨_, e, serveRequest_error e s⟩)
  · exact .inr (.inr ⟨e, serveRequest_error e s⟩)

/-- Everything a step can do when it answers a next state: the engine waits in IDLE, the engine executes the
micro-operation of PHASE, the port serves a request, or reset takes place. -/
theorem step_cases {s t : State} (h : step s = .next t) :
    (∃ u, u.phase = Phase.idle ∧ u = s.setPort s.port.tail ∧ t = u ∧ (s.port = [] ∨ s.port.head? = some .engine)) ∨
    (∃ u i, u = s.setPort s.port.tail ∧ decodeUop u.phase = .ok i ∧ exec i u = .next t ∧
      (s.port = [] ∨ s.port.head? = some .engine)) ∨
    (∃ w rest, s.port = .request w :: rest ∧ serveRequest w (s.takeRequest rest) = .next t) ∨
    (∃ rest, s.port = .reset :: rest ∧ t = (s.setPort rest).resetEvent) := by
  have engine : ∀ u : State, u = s.setPort s.port.tail → engineTurn u = .next t →
      (s.port = [] ∨ s.port.head? = some .engine) →
      (∃ u, u.phase = Phase.idle ∧ u = s.setPort s.port.tail ∧ t = u ∧ (s.port = [] ∨ s.port.head? = some .engine)) ∨
      (∃ u i, u = s.setPort s.port.tail ∧ decodeUop u.phase = .ok i ∧ exec i u = .next t ∧
        (s.port = [] ∨ s.port.head? = some .engine)) := by
    intro u hu he hp
    cases hd : decodeUop u.phase with
    | ok i => exact .inr ⟨u, i, hu, hd, engineTurn_ok hd ▸ he, hp⟩
    | error r =>
      rcases decodeUop_cases u.phase with ⟨hi, _⟩ | ⟨_, e⟩ | ⟨_, e⟩ | ⟨_, e⟩ | ⟨_, e⟩ | ⟨_, e⟩ | ⟨_, e⟩ | ⟨_, e⟩ | ⟨_, e⟩ |
        ⟨_, e⟩ | ⟨hr, _⟩
      · rw [engineTurn_idle hi] at he
        exact .inl ⟨u, hi, hu, by injection he with he; exact he.symm, hp⟩
      all_goals first
        | (rw [hd] at e; cases e)
        | (rw [engineTurn_reserved hr] at he; cases he)
  cases hp : s.port with
  | nil =>
    have hs : s = s.setPort s.port.tail := by
      rw [hp]
      exact (State.setPort_self hp).symm
    rw [step_nil hp] at h
    rcases engine s hs h (.inl hp) with g | g <;> rw [hp] at g
    · exact .inl g
    · exact .inr (.inl g)
  | cons e rest =>
    cases e with
    | engine =>
      rw [step_engine hp] at h
      rcases engine (s.setPort rest) (by rw [hp]; rfl) h (.inr (by rw [hp]; rfl)) with g | g <;> rw [hp] at g
      · exact .inl g
      · exact .inr (.inl g)
    | request w =>
      rw [step_request hp] at h
      exact .inr (.inr (.inl ⟨w, rest, rfl, h⟩))
    | reset =>
      rw [step_reset hp] at h
      injection h with h
      exact .inr (.inr (.inr ⟨rest, rfl, h.symm⟩))

/-- A run of n + m steps is a run of n and then of m. -/
theorem run_add (n m : Nat) (s : State) :
    run (n + m) s = match run n s with
      | .next t => run m t
      | .fault r => .fault r
      | .refused r => .refused r := by
  induction n generalizing s with
  | zero => simp [run]
  | succ n ih =>
    rw [Nat.succ_add]
    simp only [run]
    cases step s with
    | next t => exact ih t
    | fault r => rfl
    | refused r => rfl

end Sys2Proof.Machine
end

