-- ==== Sys2Proof/Laws/PerInstr.lean ====
section
/-! SUPPORT. Statements about an instruction as syntax, one lemma per constructor: the decoder reads each well-formed
instruction back from its code, with every operand at every value. -/

namespace Sys2Proof.Laws

open Sys2Proof Sys2Proof.Machine

/-- The decoder reads the instruction back from its code. -/
def RoundTrip.Statement (i : Instr) : Prop := i.wellFormed = true → decode (encode i) = .ok i

theorem RoundTrip.csrr (addr : Word) : RoundTrip.Statement (.csrr addr) := by
  intro _
  simp [encode, decode]

theorem RoundTrip.csrw (addr wdata : Word) : RoundTrip.Statement (.csrw addr wdata) := by
  intro h
  rcases decodeCsrw_cases addr wdata with ⟨ha, hw, _⟩ | ⟨ha, hw, _⟩ | ⟨_, e⟩
  · simp [Instr.wellFormed, ha, hw, Op.word] at h
  · simp [Instr.wellFormed, ha, hw, Op.word] at h
  · simp [encode, decode, e]

theorem RoundTrip.keyw (addr wdata : Word) : RoundTrip.Statement (.keyw addr wdata) := by
  intro _
  simp [encode, decode]

theorem RoundTrip.msgw (addr wdata : Word) : RoundTrip.Statement (.msgw addr wdata) := by
  intro _
  simp [encode, decode]

theorem RoundTrip.hash : RoundTrip.Statement .hash := by
  intro _
  simp [encode, decode, decodeCsrw, decodeCmd, Op.instr]

theorem RoundTrip.hash24 : RoundTrip.Statement .hash24 := by
  intro _
  simp [encode, decode, decodeCsrw, decodeCmd, Op.instr, Op.word]

theorem RoundTrip.init : RoundTrip.Statement .init := fun _ => rfl
theorem RoundTrip.ldblk : RoundTrip.Statement .ldblk := fun _ => rfl
theorem RoundTrip.ldtail : RoundTrip.Statement .ldtail := fun _ => rfl
theorem RoundTrip.xin : RoundTrip.Statement .xin := fun _ => rfl
theorem RoundTrip.crnd : RoundTrip.Statement .crnd := fun _ => rfl
theorem RoundTrip.xout : RoundTrip.Statement .xout := fun _ => rfl
theorem RoundTrip.xff : RoundTrip.Statement .xff := fun _ => rfl
theorem RoundTrip.frnd : RoundTrip.Statement .frnd := fun _ => rfl
theorem RoundTrip.fold : RoundTrip.Statement .fold := fun _ => rfl

end Sys2Proof.Laws
end

