-- ==== Sys2Proof/Laws/Requests.lean ====
section
/-! SUPPORT. Everything a request and a micro-operation can do to the state, in the terms invariants need. -/

namespace Sys2Proof.Machine

open Sys2Proof

/-! ### BUSY (spec/10_state.md R33) -/

theorem State.busy_eq_false {s : State} : s.busy = false ↔ s.phase = 0#4 := by simp [State.busy]

theorem State.busy_eq_true {s : State} : s.busy = true ↔ s.phase ≠ 0#4 := by simp [State.busy]

/-! ### What the operations of a request leave alone -/

/-- A byte write touches a buffer alone. -/
theorem State.memWrite_keeps (s : State) (sp : Space) (addr wdata : Word) (t : State) (h : t = s.memWrite sp addr wdata) :
    t = { s with key := t.key, msg := t.msg } := by
  subst h
  rcases State.memWrite_cases s sp addr wdata with ⟨e, _⟩ | ⟨_, _, e⟩ <;> rw [e]
  cases sp <;> rfl

/-- A configuration write touches the configuration CSRs alone. -/
theorem State.configWrite_keeps (s : State) (addr wdata : Word) (t : State) (h : t = s.configWrite addr wdata) :
    t = { s with keyLen := t.keyLen, msgLen := t.msgLen, c := t.c, d := t.d } := by
  subst h
  rcases State.configWrite_cases s addr wdata with ⟨_, e⟩ | ⟨_, e⟩ | ⟨_, e⟩ | ⟨_, e⟩ | ⟨_, _, _, _, e⟩ <;> rw [e]

/-! ### A decoded CSRW (spec/44_commands.md R191) -/

theorem exec_decodeCsrw_busy {s : State} (h : s.busy = true) (addr wdata : Word) :
    exec (decodeCsrw addr wdata) s = .next s := by
  rcases decodeCsrw_cases addr wdata with ⟨_, _, e⟩ | ⟨_, _, e⟩ | ⟨_, e⟩ <;> rw [e]
  · exact execHash_busy h
  · exact execHash24_busy h
  · exact execCsrw_busy h addr wdata

theorem exec_decodeCsrw_idle {s : State} (h : s.busy = false) (addr wdata : Word) :
    exec (decodeCsrw addr wdata) s =
      if addr = 0#64 then
        (if wdata = 1#64 then .next (s.accept .hash) else if wdata = 2#64 then .next (s.accept .hash24) else .next s)
      else .next (s.configWrite addr wdata) := by
  rcases decodeCsrw_cases addr wdata with ⟨h1, h2, e⟩ | ⟨h1, h2, e⟩ | ⟨hn, e⟩ <;> rw [e]
  · subst h1 h2
    simp [exec, execHash, h, Op.word]
  · subst h1 h2
    simp [exec, execHash24, h, Op.word]
  · simp only [exec, execCsrw, h]
    by_cases ha : addr = 0#64
    · subst ha
      have h1 : wdata ≠ 1#64 := fun h' => hn ⟨rfl, .inl h'⟩
      have h2 : wdata ≠ 2#64 := fun h' => hn ⟨rfl, .inr h'⟩
      simp [Csr.cmd, decodeCmd, Op.word, h1, h2]
    · simp [Csr.cmd, ha]

/-! ### Requests and micro-operations as a whole -/

/-- Everything serving a request can do: answer, nothing, accept a command, a configuration write, a byte write. -/
theorem serveRequest_effects {w : ReqWord} {s t : State} (h : serveRequest w s = .next t) :
    (∃ v, t = s.respond v) ∨ t = s ∨
    (s.phase = 0#4 ∧ decodeReq w = .ok .hash ∧ t = s.accept .hash) ∨
    (s.phase = 0#4 ∧ decodeReq w = .ok .hash24 ∧ t = s.accept .hash24) ∨
    (s.phase = 0#4 ∧ ∃ addr wdata, t = s.configWrite addr wdata) ∨
    (s.phase = 0#4 ∧ ∃ sp addr wdata, t = s.memWrite sp addr wdata) := by
  have bytes : ∀ sp addr wdata, t = s.memWrite sp addr wdata →
      t = s ∨ (s.phase = 0#4 ∧ ∃ sp addr wdata, t = s.memWrite sp addr wdata) := by
    intro sp addr wdata ht
    cases hb : s.busy
    · exact .inr ⟨State.busy_eq_false.mp hb, sp, addr, wdata, ht⟩
    · exact .inl (ht.trans (State.memWrite_busy hb sp addr wdata))
  rcases decodeReq_cases w with ⟨_, e⟩ | ⟨_, e⟩ | ⟨_, e⟩ | ⟨_, e⟩ | ⟨_, e⟩ | ⟨_, e⟩ | ⟨_, e⟩ | ⟨_, e⟩
  · rw [serveRequest_ok e] at h
    cases h
    exact .inl ⟨_, rfl⟩
  · rw [serveRequest_ok e] at h
    cases hb : s.busy
    · rw [exec_decodeCsrw_idle hb] at h
      have hp := State.busy_eq_false.mp hb
      split_ifs at h with h1 h2 h3 <;> cases h
      · exact .inr (.inr (.inl ⟨hp, by rw [e, h1, h2]; rfl, rfl⟩))
      · exact .inr (.inr (.inr (.inl ⟨hp, by rw [e, h1, h3]; rfl, rfl⟩)))
      · exact .inr (.inl rfl)
      · exact .inr (.inr (.inr (.inr (.inl ⟨hp, _, _, rfl⟩))))
    · rw [exec_decodeCsrw_busy hb] at h
      cases h
      exact .inr (.inl rfl)
  · rw [serveRequest_ok e] at h
    injection h with h
    rcases bytes .key _ _ h.symm with h | h
    · exact .inr (.inl h)
    · exact .inr (.inr (.inr (.inr (.inr h))))
  · rw [serveRequest_ok e] at h
    injection h with h
    rcases bytes .msg _ _ h.symm with h | h
    · exact .inr (.inl h)
    · exact .inr (.inr (.inr (.inr (.inr h))))
  · rw [serveRequest_error e] at h
    cases h
    exact .inl ⟨_, rfl⟩
  · rw [serveRequest_error e] at h
    cases h
    exact .inl ⟨_, rfl⟩
  · rw [serveRequest_error e] at h
    cases h
    exact .inl ⟨_, rfl⟩
  · rw [serveRequest_error e] at h
    cases h
    exact .inr (.inl rfl)

/-- No micro-operation writes the configuration, the buffers, the counts in effect, or the port (R20, R100). -/
theorem exec_uop_keeps {s t : State} {i : Instr} (hd : decodeUop s.phase = .ok i) (he : exec i s = .next t) :
    t = { s with
      v0 := t.v0, v1 := t.v1, v2 := t.v2, v3 := t.v3, m := t.m, phase := t.phase, off := t.off, rc := t.rc
      last := t.last, done := t.done, error := t.error, err := t.err, result := t.result, draws := t.draws } := by
  rcases decodeUop_cases s.phase with ⟨_, e⟩ | ⟨_, e⟩ | ⟨_, e⟩ | ⟨_, e⟩ | ⟨_, e⟩ | ⟨_, e⟩ | ⟨_, e⟩ | ⟨_, e⟩ | ⟨_, e⟩ |
    ⟨_, e⟩ | ⟨_, e⟩ <;> rw [e] at hd <;> cases hd <;> simp only [exec] at he
  · rw [execInit_eq] at he
    cases he
    rfl
  · rcases execLdblk_cases s with ⟨_, q⟩ | ⟨_, q⟩ <;> rw [q] at he <;> cases he <;> rfl
  · rcases execLdtail_cases s with ⟨_, q⟩ | ⟨_, _, q⟩ | ⟨_, _, q⟩ <;> rw [q] at he <;> cases he <;> rfl
  · cases he
    rfl
  · cases he
    rfl
  · rcases execXout_cases s with ⟨_, q⟩ | ⟨_, q⟩ <;> rw [q] at he <;> cases he <;> rfl
  · cases he
    rfl
  · cases he
    rfl
  · cases he
    rfl

end Sys2Proof.Machine
end

