-- ==== Sys2Proof/Laws/Run.lean ====
section
/-! SUPPORT. Runs of several steps: composition, and the two round loops. -/

namespace Sys2Proof.Machine

open Sys2Proof

theorem run_step {s t : State} {n : Nat} {r : Host.Outcome State Fault Refusal} (h : step s = .next t)
    (h' : run n t = r) : run (n + 1) s = r := by
  simp only [run, h, h']

/-- With no event pending the engine executes the micro-operation of PHASE. -/
theorem step_uop {s : State} {i : Instr} (hp : s.port = []) (hd : decodeUop s.phase = .ok i) : step s = exec i s := by
  rw [step_nil hp, engineTurn_ok hd]

/-- `n` steps lead from `s` to `t`, and PHASE is not IDLE before each of them. -/
def BusyRun (n : Nat) (s t : State) : Prop := run n s = .next t ∧ ∀ k, k < n → ∃ u, run k s = .next u ∧ u.phase ≠ 0#4

theorem BusyRun.zero (s : State) : BusyRun 0 s s := ⟨rfl, fun k hk => absurd hk (Nat.not_lt_zero k)⟩

theorem BusyRun.one {s t : State} (h : step s = .next t) (hp : s.phase ≠ 0#4) : BusyRun 1 s t := by
  refine ⟨run_step h rfl, ?_⟩
  intro k hk
  obtain rfl : k = 0 := by omega
  exact ⟨s, rfl, hp⟩

theorem BusyRun.trans {n m : Nat} {s t u : State} (h1 : BusyRun n s t) (h2 : BusyRun m t u) : BusyRun (n + m) s u := by
  refine ⟨by rw [run_add, h1.1]; exact h2.1, ?_⟩
  intro k hk
  by_cases h : k < n
  · exact h1.2 k h
  · obtain ⟨v, hv, hpv⟩ := h2.2 (k - n) (by omega)
    refine ⟨v, ?_, hpv⟩
    have e : k = n + (k - n) := by omega
    rw [e, run_add, h1.1]
    exact hv

/-- The compression rounds still to do, then XOUT (R133). -/
theorem crnd_rounds (n : Nat) (s : State) (hp : s.phase = 5#4) (hq : s.port = [])
    (hc : s.rc.toNat + (n + 1) = s.cr.toNat) :
    BusyRun (n + 1) s { s.setWords (sipRounds (n + 1) s.words) with rc := s.cr, phase := 6#4 } := by
  induction n generalizing s with
  | zero =>
    have e : s.rc + 1#64 = s.cr := by bv_omega
    refine BusyRun.one ?_ (by rw [hp]; decide)
    rw [step_uop hq (i := .crnd) (by rw [hp]; rfl)]
    show execCrnd s = _
    unfold execCrnd
    rw [e]
    simp only [if_true]
    rfl
  | succ n ih =>
    have e : s.rc + 1#64 ≠ s.cr := by bv_omega
    have e2 : (s.rc + 1#64).toNat = s.rc.toNat + 1 := by bv_omega
    have h1 : step s = .next { s.setWords (sipRound s.words) with rc := s.rc + 1#64, phase := 5#4 } := by
      rw [step_uop hq (i := .crnd) (by rw [hp]; rfl)]
      show execCrnd s = _
      unfold execCrnd
      simp only [e, if_false]
    have h2 := ih { s.setWords (sipRound s.words) with rc := s.rc + 1#64, phase := 5#4 } rfl hq
      (by simp only [e2, State.setWords_cr]; omega)
    have h := (BusyRun.one h1 (by rw [hp]; decide)).trans h2
    rw [Nat.add_comm 1] at h
    exact h

/-- The finalisation rounds still to do, then FOLD (R134). -/
theorem frnd_rounds (n : Nat) (s : State) (hp : s.phase = 8#4) (hq : s.port = [])
    (hc : s.rc.toNat + (n + 1) = s.dr.toNat) :
    BusyRun (n + 1) s { s.setWords (sipRounds (n + 1) s.words) with rc := s.dr, phase := 9#4 } := by
  induction n generalizing s with
  | zero =>
    have e : s.rc + 1#64 = s.dr := by bv_omega
    refine BusyRun.one ?_ (by rw [hp]; decide)
    rw [step_uop hq (i := .frnd) (by rw [hp]; rfl)]
    show execFrnd s = _
    unfold execFrnd
    rw [e]
    simp only [if_true]
    rfl
  | succ n ih =>
    have e : s.rc + 1#64 ≠ s.dr := by bv_omega
    have e2 : (s.rc + 1#64).toNat = s.rc.toNat + 1 := by bv_omega
    have h1 : step s = .next { s.setWords (sipRound s.words) with rc := s.rc + 1#64, phase := 8#4 } := by
      rw [step_uop hq (i := .frnd) (by rw [hp]; rfl)]
      show execFrnd s = _
      unfold execFrnd
      simp only [e, if_false]
    have h2 := ih { s.setWords (sipRound s.words) with rc := s.rc + 1#64, phase := 8#4 } rfl hq
      (by simp only [e2, State.setWords_dr]; omega)
    have h := (BusyRun.one h1 (by rw [hp]; decide)).trans h2
    rw [Nat.add_comm 1] at h
    exact h

end Sys2Proof.Machine
end

