-- ==== Sys2Proof/Machine/Program.lean ====
section
/-! DEFINITION. The notation for host programs (spec/30_encoding.md R111, R112): lines and pseudo-instructions as lists of events. -/

namespace Sys2Proof.Machine

open Sys2Proof

/-- A line of a program: the request event of an instruction's code; an engine step for a micro-operation (R111). -/
def line (i : Instr) : Event :=
  match encode i with
  | .req w => .request w
  | .uop _ => .engine

/-- `op i, b(i)` for i from `i` on, in ascending order. -/
def byteLines (op : Word → Word → Instr) : Nat → List Byte → List Event
  | _, [] => []
  | i, b :: bs => line (op (BitVec.ofNat 64 i) (zextByte b)) :: byteLines op (i + 1) bs

/-- `loadkey b0 ... b(n-1)` (R112). -/
def loadkey (bs : List Byte) : List Event :=
  byteLines .keyw 0 (bs.take 16) ++ [line (.csrw Csr.keyLen (BitVec.ofNat 64 bs.length))]

/-- `loadmsg b0 ... b(n-1)` (R112). -/
def loadmsg (bs : List Byte) : List Event :=
  byteLines .msgw 0 bs ++ [line (.csrw Csr.msgLen (BitVec.ofNat 64 bs.length))]

/-- `hash c, d` (R112). -/
def hashLines (c d : Word) : List Event := [line (.csrw Csr.c c), line (.csrw Csr.d d), line .hash]

/-- `hash24` (R112). -/
def hash24Lines : List Event := [line .hash24]

/-- `result` (R112). -/
def resultLines : List Event := [line (.csrr Csr.result)]

/-- `wait` (R112): before each read of STATUS the engine takes any number of steps, given here as a list; the loop
ends at the first read with bit 0 clear, or with the list (assumption 11). -/
def waitLines : List Nat → State → Host.Outcome State Fault Refusal
  | [], s => .next s
  | turns :: more, s =>
    match run (turns + 1) { s with port := List.replicate turns .engine ++ line (.csrr Csr.status) :: s.port } with
    | .next t => if (t.rdata.getD 0).getLsbD 0 then waitLines more t else .next t
    | .fault r => .fault r
    | .refused r => .refused r

end Sys2Proof.Machine
end

