-- ==== Sys2Proof/Tests/Slice0.lean ====
section
/-! SUPPORT. Tests with results taken from spec/95_test_vectors.md and the examples of the rules, and for every obligation
with hypotheses a witness that meets them. -/

namespace Sys2Proof.Tests

open Sys2Proof Sys2Proof.Machine

/-! ### Small states -/

/-- The first `n` bytes of the sequence 0, 1, 2, ... at addresses 0, 1, 2, ... -/
def seqBytes (n : Nat) : Buffer := (List.range n).map fun i => (i, BitVec.ofNat 8 i)

/-- IDLE, the key `K0F`, the message `SEQ(len)`, C = 2, D = 4. -/
def idle (cap len : Nat) : State :=
  { State.resetWith (BitVec.ofNat 64 cap) with
    keyLen := 16#64, msgLen := BitVec.ofNat 64 len, c := 2#64, d := 4#64, key := seqBytes 16, msg := seqBytes (min cap len) }

/-- The same in a phase of a run. -/
def busyIn (p : PhaseCode) (cap len : Nat) : State := { idle cap len with phase := p, cr := 2#64, dr := 4#64 }

/-- A request of the host stands at the port. -/
def asking (s : State) (kind : BitVec 3) (addr wdata : Word) : State :=
  { s with port := [.request (packReq kind addr wdata)] }

/-- What holds of the next state, where there is one. -/
def after {α : Type} (o : Host.Outcome State Fault Refusal) (f : State → α) : Option α :=
  match o with
  | .next t => some (f t)
  | .fault _ => none
  | .refused _ => none

/-! ### WellFormed: the ill-formed terms -/

theorem test_wf_csrw_of_hash_word : (Instr.csrw 0#64 1#64).wellFormed = false := by decide
theorem test_wf_csrw_of_hash24_word : (Instr.csrw 0#64 2#64).wellFormed = false := by decide
theorem test_wf_csrw_of_reserved_word : (Instr.csrw 0#64 3#64).wellFormed = true := by decide

/-! ### Decoding: words written out from R90, R91, R93, R100, R111 -/

theorem test_decode_csrr : decode (.req 0x000000000000000070000000000000000#131) = .ok (.csrr 7#64) := by decide
theorem test_decode_csrw : decode (.req 0x10000000000000004000000000000000c#131) = .ok (.csrw 4#64 12#64) := by decide
theorem test_decode_keyw : decode (.req 0x3000000000000000e000000000000000e#131) = .ok (.keyw 14#64 0x0e#64) := by decide
theorem test_decode_msgw : decode (.req 0x5000000000000000a0000000000000064#131) = .ok (.msgw 10#64 0x64#64) := by decide
theorem test_decode_hash : decode (.req 0x100000000000000000000000000000001#131) = .ok .hash := by decide
theorem test_decode_hash24 : decode (.req 0x100000000000000000000000000000002#131) = .ok .hash24 := by decide
theorem test_decode_reserved_command :
    decode (.req 0x100000000000000000000000000000101#131) = .ok (.csrw 0#64 0x101#64) := by decide
theorem test_decode_key_read : decode (.req 0x200000000000000000000000000000000#131) = .error .reservedKeyRead := by decide
theorem test_decode_init : decode (.uop 0b0001#4) = .ok .init := by decide
theorem test_decode_ldblk : decode (.uop 0b0010#4) = .ok .ldblk := by decide
theorem test_decode_ldtail : decode (.uop 0b0011#4) = .ok .ldtail := by decide
theorem test_decode_xin : decode (.uop 0b0100#4) = .ok .xin := by decide
theorem test_decode_crnd : decode (.uop 0b0101#4) = .ok .crnd := by decide
theorem test_decode_xout : decode (.uop 0b0110#4) = .ok .xout := by decide
theorem test_decode_xff : decode (.uop 0b0111#4) = .ok .xff := by decide
theorem test_decode_frnd : decode (.uop 0b1000#4) = .ok .frnd := by decide
theorem test_decode_fold : decode (.uop 0b1001#4) = .ok .fold := by decide

/-- Rows of spec/opcode_table.json by their match values: kind 011 (KEYW), the command word 2, phase code 9. -/
theorem test_table_words :
    decodeTableWord 3 9 = some .fold ∧ decodeTableWord 8 9 = some .fold ∧ decodeTableWord 64 2 = some .hash24 ∧
    decodeTableWord 136 3 = some (.keyw 0#64 0#64) ∧ decodeTableWord 136 0 = some (.csrr 0#64) := by decide

/-! ### Arithmetic (spec/95_test_vectors.md 2.1 to 2.3) -/

/-- V-A5, V-A11, V-A12. -/
theorem test_rotl64 :
    rotl64 0x8000000000000001#64 13 = 0x0000000000003000#64 ∧ rotl64 0x0123456789abcdef#64 32 = 0x89abcdef01234567#64 ∧
    rotl64 0x0123456789abcdef#64 13 = 0x68acf13579bde024#64 := by decide

/-- V-S9. -/
theorem test_sipRound :
    sipRound { v0 := 0x0123456789abcdef#64, v1 := 0xfedcba9876543210#64, v2 := 0x0f1e2d3c4b5a6978#64, v3 := 0x8796a5b4c3d2e1f0#64 } =
      { v0 := 0x33001123eeddccfd#64, v1 := 0x1d0b375d48a3fad5#64, v2 := 0x88eb2b8cff61c426#64, v3 := 0x177dca9a711bacff#64 } := by
  decide

/-- The buffer of section 2.2. -/
def codecState : State :=
  { State.resetWith 10#64 with msg :=
      [(0, 0x11#8), (1, 0x22#8), (2, 0x33#8), (3, 0x44#8), (4, 0x55#8), (5, 0x66#8), (6, 0x77#8), (7, 0x88#8), (8, 0x99#8), (9, 0xaa#8)] }

/-- The word read, or none where the read raises. -/
def codecRead (a n : Nat) : Option Word := ((codecState.memRead .msg a n).toOption).map Prod.fst

/-- V-W5, V-W9, V-W8. -/
theorem test_memRead :
    codecRead 2 8 = some 0xaa99887766554433#64 ∧ codecRead 1 3 = some 0x443322#64 ∧ codecRead 10 0 = some 0#64 :=
  ⟨rfl, rfl, rfl⟩

/-- V-W10, V-W12, V-W13. -/
theorem test_memRead_raises : codecRead 3 8 = none ∧ codecRead 10 1 = none ∧ codecRead 11 0 = none :=
  ⟨rfl, rfl, rfl⟩

/-! ### One step of each instruction -/

/-- V-I2. -/
theorem test_init :
    after (exec .init (busyIn 1#4 64 8)) (fun t => (t.v0, t.v1, t.v2, t.v3, t.phase)) =
      some (0x7469686173716475#64, 0x6b617f6d656e6665#64, 0x6b7f62616d677361#64, 0x7b6b696e727e6c7b#64, 2#4) := rfl

/-- V-L2. -/
theorem test_ldblk :
    after (exec .ldblk { busyIn 2#4 512 17 with off := 8#64 }) (fun t => (t.m, t.last, t.phase)) =
      some (0x0f0e0d0c0b0a0908#64, false, 4#4) := rfl

/-- V-F6: OFF + 8 > MSG_CAP. -/
theorem test_ldblk_past_capacity :
    after (exec .ldblk { busyIn 2#4 10 16 with off := 8#64, m := 7#64, last := true })
      (fun t => (t.m, t.last, t.phase, t.error, t.err)) = some (7#64, true, 0#4, true, 3#8) := rfl

/-- V-L12. -/
theorem test_ldtail :
    after (exec .ldtail { busyIn 3#4 512 15 with off := 8#64 }) (fun t => (t.m, t.last, t.phase)) =
      some (0x0f0e0d0c0b0a0908#64, true, 4#4) := rfl

/-- V-L17: the tag is MSG_LEN mod 256. -/
theorem test_ldtail_tag_wraps :
    after (exec .ldtail { busyIn 3#4 512 268 with
        off := 264#64, msg := [(264, 0x08#8), (265, 0x09#8), (266, 0x0a#8), (267, 0x0b#8)] })
      (fun t => t.m) = some 0x0c0000000b0a0908#64 := rfl

/-- V-X1. -/
theorem test_xin :
    after (exec .xin { busyIn 4#4 64 12 with v3 := 0x7b6b696e727e6c7b#64, m := 0x0100000000000000#64, rc := 2#64 })
      (fun t => (t.v3, t.rc, t.phase)) = some (0x7a6b696e727e6c7b#64, 0#64, 5#4) := rfl

/-- R133's example, V-S6. -/
theorem test_crnd :
    after (exec .crnd { busyIn 5#4 64 12 with v0 := 1#64, v1 := 2#64, v2 := 3#64, v3 := 4#64 })
      (fun t => (t.v0, t.v1, t.v2, t.v3, t.rc, t.phase)) =
      some (0x0000000300040007#64, 0x000000008006400a#64, 0x0000400a00000000#64, 0x0000008300e40007#64, 1#64, 5#4) := rfl

/-- V-C3. -/
theorem test_crnd_last_round :
    after (exec .crnd { busyIn 5#4 64 12 with rc := 1#64 }) (fun t => (t.rc, t.phase)) = some (2#64, 6#4) := rfl

/-- V-X3. -/
theorem test_xout_tail :
    after (exec .xout { busyIn 6#4 64 12 with v0 := 0x801250d48cf12ab6#64, m := 0x0100000000000000#64, last := true })
      (fun t => (t.v0, t.off, t.phase)) = some (0x811250d48cf12ab6#64, 0#64, 7#4) := rfl

/-- V-X5, V-X6. -/
theorem test_xout_block :
    after (exec .xout (busyIn 6#4 64 16)) (fun t => (t.off, t.phase)) = some (8#64, 2#4) ∧
    after (exec .xout { busyIn 6#4 64 16 with off := 8#64 }) (fun t => (t.off, t.phase)) = some (16#64, 3#4) := ⟨rfl, rfl⟩

/-- V-X7. -/
theorem test_xff :
    after (exec .xff { busyIn 7#4 64 12 with v2 := 0x37b04f9f8026831d#64, rc := 2#64 }) (fun t => (t.v2, t.rc, t.phase)) =
      some (0x37b04f9f802683e2#64, 0#64, 8#4) := rfl

/-- V-C4, V-C5. -/
theorem test_frnd :
    after (exec .frnd { busyIn 8#4 64 12 with rc := 2#64 }) (fun t => (t.rc, t.phase)) = some (3#64, 8#4) ∧
    after (exec .frnd { busyIn 8#4 64 12 with rc := 3#64 }) (fun t => (t.rc, t.phase)) = some (4#64, 9#4) := ⟨rfl, rfl⟩

/-- Step 8 of program P1. -/
theorem test_frnd_round :
    after (exec .frnd { busyIn 8#4 64 0 with
        v0 := 0x75126fd44af190b6#64, v1 := 0x084235164f06142b#64, v2 := 0x37b04f9f802683e2#64, v3 := 0x1b4678cde8253231#64 })
      (fun t => (t.v0, t.v1, t.v2, t.v3)) =
      some (0xc432c529d7cf523f#64, 0x54f98392486c0c10#64, 0xc3be7bfc8eed3577#64, 0xcd398a7c7d6a155b#64) := rfl

/-- V-X9. -/
theorem test_fold :
    after (exec .fold { busyIn 9#4 64 0 with
        v0 := 0xe738d0dfdc9b2453#64, v1 := 0x214ac5771e0c4cd2#64, v2 := 0xe2ea71f68a57ef6d#64, v3 := 0x56f7bf1995ce89dd#64 })
      (fun t => (t.result, t.done, t.phase)) = some (0x726fdb47dd0e0e31#64, true, 0#4) := rfl

/-- V-E11: STATUS is 0x11 after the CSRW. -/
theorem test_hash :
    after (exec .hash { idle 64 0 with c := 1#64, d := 1#64 }) (fun t => (t.statusWord, t.err, t.cr, t.dr)) =
      some (0x11#64, 0#8, 1#64, 1#64) := rfl

/-- V-E5 and V-E7. -/
theorem test_hash_errors :
    after (exec .hash { idle 64 0 with d := 0#64 }) (fun t => (t.statusWord, t.err)) = some (0x04#64, 2#8) ∧
    after (exec .hash { idle 64 0 with keyLen := 15#64, c := 0#64, d := 0#64 }) (fun t => (t.statusWord, t.err)) =
      some (0x04#64, 1#8) := ⟨rfl, rfl⟩

/-- V-E8. -/
theorem test_hash24 :
    after (exec .hash24 { idle 64 0 with c := 0#64, d := 0#64 }) (fun t => (t.statusWord, t.err, t.cr, t.dr)) =
      some (0x11#64, 0#8, 2#64, 4#64) := rfl

/-- V-E3. -/
theorem test_hash24_error :
    after (exec .hash24 { idle 64 0 with keyLen := 0#64 }) (fun t => (t.statusWord, t.err)) = some (0x04#64, 1#8) := rfl

/-- V-Q2, V-Q9, V-Q10. -/
theorem test_csrr :
    after (exec (.csrr 8#64) (State.resetWith 64#64)) (fun t => t.rdata) = some (some 0x40#64) ∧
    after (exec (.csrr 0#64) (idle 64 0)) (fun t => t.rdata) = some (some 0#64) ∧
    after (exec (.csrr 0x0000000100000003#64) (idle 64 0)) (fun t => t.rdata) = some (some 0#64) := ⟨rfl, rfl, rfl⟩

/-- V-Q16: STATUS while in CRND. -/
theorem test_csrr_status_busy :
    after (exec (.csrr 1#64) (busyIn 5#4 64 12)) (fun t => t.rdata) = some (some 0x51#64) := rfl

/-- V-Q4. -/
theorem test_csrw :
    after (exec (.csrw 5#64 0xffffffffffffffff#64) (idle 64 0)) (fun t => t.c) = some 0xffffffffffffffff#64 := rfl

/-- V-Q6 and V-Q16: a reserved command, and a write while busy. -/
theorem test_csrw_dropped :
    exec (.csrw 0#64 3#64) { idle 64 0 with done := true, result := 5#64 } = .next { idle 64 0 with done := true, result := 5#64 } ∧
    exec (.csrw 4#64 5#64) (busyIn 5#4 64 12) = .next (busyIn 5#4 64 12) := ⟨rfl, rfl⟩

/-- V-Q13 and V-Q11. -/
theorem test_keyw :
    after (exec (.keyw 0#64 0x1234#64) (idle 64 0)) (fun t => t.key.read? 0) = some (some 0x34#8) ∧
    exec (.keyw 16#64 0xaa#64) (idle 64 0) = .next (idle 64 0) := ⟨rfl, rfl⟩

/-- V-Q12. -/
theorem test_msgw :
    after (exec (.msgw 63#64 0xaa#64) (idle 64 0)) (fun t => t.msg.read? 63) = some (some 0xaa#8) ∧
    exec (.msgw 64#64 0xaa#64) (idle 64 0) = .next (idle 64 0) := ⟨rfl, rfl⟩

/-! ### The step -/

/-- V-Q14 and V-Q15 as requests at the port. -/
theorem test_step_reserved :
    after (step (asking (idle 64 0) 0b010#3 9#64 9#64)) (fun t => t.rdata) = some (some 0#64) ∧
    after (step (asking (idle 64 0) 0b111#3 9#64 9#64)) (fun t => t.rdata) = some none := ⟨rfl, rfl⟩

/-- The step runs a placed word (spec/opcode_table.json, HASH and FRND). -/
theorem test_withFetchWord :
    after (step (State.reset.withFetchWord 64 1)) (fun t => (t.statusWord, t.err)) = some (0x04#64, 1#8) ∧
    after (step (State.reset.withFetchWord 8 8)) (fun t => (t.rc, t.phase)) = some (1#64, 8#4) := ⟨rfl, rfl⟩

/-- Reset in the middle of a run (R240). -/
theorem test_reset_event :
    after (step { busyIn 5#4 64 12 with port := [.reset], v0 := 9#64 }) (fun t => (t.phase, t.v0, t.keyLen, t.key.read? 3)) =
      some (0#4, 0#64, 0#64, none) := rfl

/-! ### The function (spec/95_test_vectors.md S1, V-R13, V-P2; R112) -/

theorem test_siphash24_empty :
    siphashCore (BitVec.ofNat 8) (BitVec.ofNat 8) 0 2 4 = 0x726fdb47dd0e0e31#64 := by decide
theorem test_siphash24_twelve :
    siphashCore (BitVec.ofNat 8) (BitVec.ofNat 8) 12 2 4 = 0x751e8fbc860ee5fb#64 := by decide
theorem test_siphash13_empty :
    siphashCore (BitVec.ofNat 8) (BitVec.ofNat 8) 0 1 3 = 0xabac0158050fc4dc#64 := by decide

/-- R112 with R111's words: `loadkey` of seventeen bytes writes sixteen and declares seventeen. -/
theorem test_loadkey :
    (loadkey (List.replicate 17 0xaa#8)).length = 17 ∧
    (loadkey (List.replicate 17 0xaa#8)).getLast? = some (.request 0x100000000000000030000000000000011#131) := ⟨rfl, rfl⟩

/-! ### Witnesses: for every obligation with hypotheses, states and operands that meet them together -/

theorem witness_DecodingReadsBackEveryEncoding : (Instr.csrw 0#64 0#64).wellFormed = true ∧ Instr.fold.wellFormed = true := by
  decide

/-- A read that carries data, and a micro-operation. -/
theorem witness_EncodingReadsBackEveryDecodedCode :
    decode (.req (packReq Kind.csrr 8#64 5#64)) = .ok (.csrr 8#64) ∧ decode (.uop 9#4) = .ok .fold := by decide

theorem witness_StepRunsTheDecodedRequest :
    (asking (idle 64 0) 0b001#3 4#64 12#64).port = .request (packReq 0b001#3 4#64 12#64) :: [] ∧
    decode (.req (packReq 0b001#3 4#64 12#64)) = .ok (.csrw 4#64 12#64) := by decide

/-- Both clauses. -/
theorem witness_StepRunsTheMicroOperationOfPhase :
    decode (.uop (busyIn 1#4 64 0).phase) = .ok .init ∧ (busyIn 1#4 64 0).port = [] ∧
    decode (.uop (busyIn 9#4 64 0).phase) = .ok .fold ∧ ({ busyIn 9#4 64 0 with port := [.engine] } : State).port = .engine :: [] := by
  decide

/-- A micro-operation, a command, a request. -/
theorem witness_PlacedTableWordIsWhatTheNextStepRuns :
    decodeTableWord 8 5 = some .crnd ∧ decodeTableWord 64 1 = some .hash ∧ decodeTableWord 136 5 = some (.msgw 0#64 0#64) := by
  decide

/-- Each kind; the CSR numbers at the edges of each range. -/
theorem witness_ReservedRequestsAnswerZeroOrAreDropped :
    (asking (idle 64 0) 0b010#3 0#64 0#64).port = .request (packReq 0b010#3 0#64 0#64) :: [] ∧
    (asking (idle 64 0) 0b100#3 0#64 0#64).port = .request (packReq 0b100#3 0#64 0#64) :: [] ∧
    (asking (idle 64 0) 0b110#3 0#64 0#64).port = .request (packReq 0b110#3 0#64 0#64) :: [] ∧
    (asking (idle 64 0) 0b111#3 0#64 0#64).port = .request (packReq 0b111#3 0#64 0#64) :: [] ∧
    (0#64 = (0#64 : Word) ∨ 8 < (0#64 : Word).toNat) ∧ 8 < (9#64 : Word).toNat ∧ 8 < (0xffffffffffffffff#64 : Word).toNat := by
  decide

/-- PHASE 0, 10 and 15. -/
theorem witness_EngineHasNoStepInIdleOrReservedPhases :
    (idle 64 0).phase = 0#4 ∧ (idle 64 0).port = [] ∧ ({ idle 64 0 with port := [.engine] } : State).port = .engine :: [] ∧
    10 ≤ (busyIn 10#4 64 0).phase.toNat ∧ (busyIn 10#4 64 0).port = [] ∧
    10 ≤ ({ busyIn 15#4 64 0 with port := [.engine] } : State).phase.toNat ∧
    ({ busyIn 15#4 64 0 with port := [.engine] } : State).port = .engine :: [] := by decide

theorem witness_RunStartsOnlyByAnAcceptedCommand :
    ∃ t, (asking (idle 64 0) 0b001#3 0#64 1#64).phase = 0#4 ∧ step (asking (idle 64 0) 0b001#3 0#64 1#64) = .next t ∧ t.phase ≠ 0#4 :=
  ⟨_, rfl, rfl, by decide⟩

theorem witness_ResetLeavesTheListedValues : State.reset = State.resetWith 64#64 := rfl

theorem witness_ResetEventAbandonsTheRun :
    ({ busyIn 5#4 64 12 with port := [.reset, .engine] } : State).port = .reset :: [.engine] := rfl

/-- Both ends of the ranges of n and i. -/
theorem witness_RotationMovesEveryBitByItsAmount : (1 ≤ 1 ∧ 1 ≤ 63 ∧ 0 < 64) ∧ (1 ≤ 63 ∧ 63 ≤ 63 ∧ 63 < 64) := by decide

/-- The intermediate values of V-S6. -/
theorem witness_SipRoundHasItsSingleAssignmentForm :
    (0x3#64 : Word) = 1#64 + 2#64 ∧ 0x4003#64 = rotl64 2#64 13 ^^^ 0x3#64 ∧ 0x300000000#64 = rotl64 0x3#64 32 ∧
    (0x7#64 : Word) = 3#64 + 4#64 ∧ 0x40007#64 = rotl64 4#64 16 ^^^ 0x7#64 ∧ (0x400a#64 : Word) = 0x7#64 + 0x4003#64 ∧
    0x8006400a#64 = rotl64 0x4003#64 17 ^^^ 0x400a#64 ∧ 0x400a00000000#64 = rotl64 0x400a#64 32 ∧
    (0x300040007#64 : Word) = 0x300000000#64 + 0x40007#64 ∧ 0x8300e40007#64 = rotl64 0x40007#64 21 ^^^ 0x300040007#64 := by
  decide

theorem witness_LittleEndianReadIsTheSumOfItsBytes : 0 ≤ 8 ∧ 8 ≤ 8 ∧ 8 * 8 ≤ 64 ∧ 8 * 0 ≤ 0 := by decide

/-- One byte past the capacity, and exactly at it. -/
theorem witness_MemReadRaisesPastCapacityElseReads :
    8 ≤ 8 ∧ codecState.capacity .msg < 3 + 8 ∧ 2 + 8 ≤ codecState.capacity .msg ∧
    (codecState.buffer .msg).read? (2 + 7) = some 0xaa#8 ∧ (idle 64 0).capacity .key < 9 + 8 ∧ 8 + 8 ≤ (idle 64 0).capacity .key := by
  decide

theorem witness_LengthTagAndTailAreDisjoint : 0 ≤ 7 ∧ 7 ≤ 7 := by decide

/-- A written key byte. -/
theorem witness_InitLoadsTheKeyAndInitialises : (busyIn 1#4 64 0).key.read? 15 = some 0x0f#8 := by decide

/-- A block that ends exactly at MSG_CAP. -/
theorem witness_LdblkLoadsABlockInsideTheBuffer :
    ({ busyIn 2#4 16 16 with off := 8#64 } : State).off.toNat + 8 ≤ ({ busyIn 2#4 16 16 with off := 8#64 } : State).msgCap.toNat ∧
    (busyIn 2#4 16 16).msg.read? 15 = some 0x0f#8 := by decide

/-- Tails of 0 and of 7 bytes, the second up to MSG_CAP. -/
theorem witness_LdtailBuildsTheLengthTaggedBlock :
    ((busyIn 3#4 0 0).off.toNat + 0 = (busyIn 3#4 0 0).msgLen.toNat ∧ 0 ≤ 7 ∧ (busyIn 3#4 0 0).msgLen.toNat ≤ (busyIn 3#4 0 0).msgCap.toNat) ∧
    (busyIn 3#4 7 7).off.toNat + 7 = (busyIn 3#4 7 7).msgLen.toNat ∧ 7 ≤ 7 ∧ (busyIn 3#4 7 7).msgLen.toNat ≤ (busyIn 3#4 7 7).msgCap.toNat := by
  decide

/-- V-F11 (LDBLK) and V-F13 (LDTAIL): one byte too many. -/
theorem witness_LoadsPastTheCapacityTakeTheError :
    (busyIn 2#4 7 8).msgCap.toNat < (busyIn 2#4 7 8).off.toNat + 8 ∧
    (busyIn 3#4 0 1).off.toNat ≤ (busyIn 3#4 0 1).msgLen.toNat ∧
    (busyIn 3#4 0 1).msgLen.toNat - (busyIn 3#4 0 1).off.toNat ≤ 7 ∧
    (busyIn 3#4 0 1).msgCap.toNat < (busyIn 3#4 0 1).msgLen.toNat := by decide

theorem witness_CrndAppliesOneRound :
    ({ v0 := 0#64, v1 := 0#64, v2 := 0#64, v3 := 0#64 } : Words) =
      sipRound { v0 := (busyIn 5#4 64 0).v0, v1 := (busyIn 5#4 64 0).v1, v2 := (busyIn 5#4 64 0).v2, v3 := (busyIn 5#4 64 0).v3 } := by
  decide

/-- A block that ends exactly at MSG_LEN, and the tail block. -/
theorem witness_XoutFoldsTheBlockAndAdvances :
    (busyIn 6#4 64 8).last = false ∧ (busyIn 6#4 64 8).off.toNat + 8 ≤ (busyIn 6#4 64 8).msgLen.toNat ∧
    ({ busyIn 6#4 64 0 with last := true } : State).last = true := by decide

theorem witness_FrndAppliesOneRound :
    ({ v0 := 0#64, v1 := 0#64, v2 := 0#64, v3 := 0#64 } : Words) =
      sipRound { v0 := (busyIn 8#4 64 0).v0, v1 := (busyIn 8#4 64 0).v1, v2 := (busyIn 8#4 64 0).v2, v3 := (busyIn 8#4 64 0).v3 } := by
  decide

/-- A full block, and the tail block of the empty message. -/
theorem witness_CompressionPassIsCompress :
    ((busyIn 4#4 64 8).phase = 4#4 ∧ (busyIn 4#4 64 8).port = [] ∧ 1 ≤ (busyIn 4#4 64 8).cr.toNat ∧
      ((busyIn 4#4 64 8).last = false → (busyIn 4#4 64 8).off.toNat + 8 ≤ (busyIn 4#4 64 8).msgLen.toNat)) ∧
    (({ busyIn 4#4 64 0 with last := true } : State).last = false →
      (busyIn 4#4 64 0).off.toNat + 8 ≤ (busyIn 4#4 64 0).msgLen.toNat) := by decide

theorem witness_HashStartsTheRun :
    (idle 64 0).phase = 0#4 ∧ (idle 64 0).keyLen = 16#64 ∧ (idle 64 0).c ≠ 0#64 ∧ (idle 64 0).d ≠ 0#64 := by decide

/-- C = D = 0, as in V-E8. -/
theorem witness_Hash24StartsTheRun :
    ({ idle 64 0 with c := 0#64, d := 0#64 } : State).phase = 0#4 ∧ ({ idle 64 0 with c := 0#64, d := 0#64 } : State).keyLen = 16#64 := by
  decide

/-- KEY_LEN 15 and 17; C = 0 alone and D = 0 alone. -/
theorem witness_ValidationErrorsArePrecise :
    (idle 64 0).phase = 0#4 ∧ ({ idle 64 0 with keyLen := 15#64 } : State).keyLen ≠ 16#64 ∧
    ({ idle 64 0 with keyLen := 17#64 } : State).keyLen ≠ 16#64 ∧ (idle 64 0).keyLen = 16#64 ∧
    (({ idle 64 0 with c := 0#64 } : State).c = 0#64 ∨ ({ idle 64 0 with c := 0#64 } : State).d = 0#64) ∧
    (({ idle 64 0 with d := 0#64 } : State).c = 0#64 ∨ ({ idle 64 0 with d := 0#64 } : State).d = 0#64) := by decide

theorem witness_Hash24EqualsHashWithTwoAndFour : (idle 64 0).phase = 0#4 := by decide

/-! #### States that meet the invariant -/

/-- IDLE, configured. -/
theorem inv_idle : Inv (idle 64 12) := by
  constructor
  · constructor <;> decide
  all_goals decide

/-- INIT, MSG_LEN <= MSG_CAP. -/
theorem inv_init : Inv (busyIn 1#4 64 12) := by
  constructor
  · constructor <;> decide
  all_goals decide

/-- INIT, MSG_LEN > MSG_CAP, the failing read at LDTAIL (V-F5). -/
theorem inv_init_past : Inv (busyIn 1#4 10 12) := by
  constructor
  · constructor <;> decide
  all_goals decide

/-- INIT, MSG_LEN > MSG_CAP, the failing read at LDBLK (V-F11). -/
theorem inv_init_past_block : Inv (busyIn 1#4 7 8) := by
  constructor
  · constructor <;> decide
  all_goals decide

/-- LDBLK one byte past MSG_CAP (V-F11). -/
theorem inv_ldblk_past : Inv (busyIn 2#4 7 8) := by
  constructor
  · constructor <;> decide
  all_goals decide

/-- LDTAIL one byte past MSG_CAP (V-F13). -/
theorem inv_ldtail_past : Inv (busyIn 3#4 0 1) := by
  constructor
  · constructor <;> decide
  all_goals decide

/-- CRND. -/
theorem inv_crnd : Inv (busyIn 5#4 64 12) := by
  constructor
  · constructor <;> decide
  all_goals decide

/-- FOLD. -/
theorem inv_fold : Inv ({ busyIn 9#4 64 0 with last := true }) := by
  constructor
  · constructor <;> decide
  all_goals decide

/-- A wrong key length, a zero round count, a failing block and a failing tail. -/
theorem witness_ErrorsComeFromTheThreeCausesOnly :
    (∃ t, Inv (asking { idle 64 12 with keyLen := 15#64 } 0b001#3 0#64 2#64) ∧
      step (asking { idle 64 12 with keyLen := 15#64 } 0b001#3 0#64 2#64) = .next t ∧ t.error = true) ∧
    (∃ t, Inv (asking { idle 64 12 with d := 0#64 } 0b001#3 0#64 1#64) ∧
      step (asking { idle 64 12 with d := 0#64 } 0b001#3 0#64 1#64) = .next t ∧ t.error = true) ∧
    (∃ t, Inv (busyIn 2#4 7 8) ∧ step (busyIn 2#4 7 8) = .next t ∧ (busyIn 2#4 7 8).error = false ∧ t.error = true) ∧
    (∃ t, Inv (busyIn 3#4 0 1) ∧ step (busyIn 3#4 0 1) = .next t ∧ (busyIn 3#4 0 1).error = false ∧ t.error = true) := by
  refine ⟨⟨_, ?_, rfl, rfl⟩, ⟨_, ?_, rfl, rfl⟩, ⟨_, inv_ldblk_past, rfl, rfl, rfl⟩, ⟨_, inv_ldtail_past, rfl, rfl, rfl⟩⟩
  · constructor
    · constructor <;> decide
    all_goals decide
  · constructor
    · constructor <;> decide
    all_goals decide

/-- A read, a reset and a command in IDLE. -/
theorem witness_OutcomeKeepsUntilNextCommandOrReset :
    (∃ t, (asking (idle 64 0) 0b000#3 1#64 0#64).phase = 0#4 ∧ step (asking (idle 64 0) 0b000#3 1#64 0#64) = .next t) ∧
    (∃ t, step { idle 64 0 with port := [.reset] } = .next t) ∧
    (∃ t, step (asking (idle 64 0) 0b001#3 0#64 2#64) = .next t) := ⟨⟨_, rfl, rfl⟩, ⟨_, rfl⟩, ⟨_, rfl⟩⟩

/-- FOLD, a failing load, and reset. -/
theorem witness_RunEndsWithExactlyOneOutcome :
    (∃ t, Inv { busyIn 9#4 64 0 with last := true } ∧ step { busyIn 9#4 64 0 with last := true } = .next t ∧ t.phase = 0#4) ∧
    (∃ t, Inv (busyIn 2#4 7 8) ∧ (busyIn 2#4 7 8).phase ≠ 0#4 ∧ step (busyIn 2#4 7 8) = .next t ∧ t.phase = 0#4) ∧
    (∃ t, step { busyIn 5#4 64 12 with port := [.reset] } = .next t ∧ t.phase = 0#4) :=
  ⟨⟨_, inv_fold, rfl, rfl⟩, ⟨_, inv_ldblk_past, by decide, rfl, rfl⟩, ⟨_, rfl, rfl⟩⟩

/-- The first unmapped number and the last. -/
theorem witness_CsrrAnswersTheRegister : 8 < (9#64 : Word).toNat ∧ 8 < (0xffffffffffffffff#64 : Word).toNat := by decide

/-- IDLE with the words 1, 2, 3 and the numbers 7, 9; busy. -/
theorem witness_CsrwWritesConfigurationOrIssuesTheCommand :
    (idle 64 0).phase = 0#4 ∧ (3#64 : Word) ≠ 1#64 ∧ (3#64 : Word) ≠ 2#64 ∧ 7 ≤ (7#64 : Word).toNat ∧ 7 ≤ (9#64 : Word).toNat ∧
    (busyIn 5#4 64 0).phase ≠ 0#4 := by decide

/-- Addresses 0, 15 and 16; busy. -/
theorem witness_KeywWritesOneKeyByte :
    (idle 64 0).phase = 0#4 ∧ (0#64 : Word).toNat ≤ 15 ∧ (15#64 : Word).toNat ≤ 15 ∧ 16 ≤ (16#64 : Word).toNat ∧
    (busyIn 1#4 64 0).phase ≠ 0#4 := by decide

/-- Addresses MSG_CAP - 1 and MSG_CAP; a capacity of 0; busy. -/
theorem witness_MsgwWritesOneMessageByte :
    (idle 64 0).phase = 0#4 ∧ (63#64 : Word).toNat < (idle 64 0).msgCap.toNat ∧ (idle 64 0).msgCap.toNat ≤ (64#64 : Word).toNat ∧
    (idle 0 0).msgCap.toNat ≤ (0#64 : Word).toNat ∧ (busyIn 9#4 64 0).phase ≠ 0#4 := by decide

/-- A write and a read while busy. -/
theorem witness_WriteLockDropsEveryHostWrite :
    (asking (busyIn 5#4 64 12) 0b101#3 0#64 0xff#64).port = .request (packReq 0b101#3 0#64 0xff#64) :: [] ∧
    (busyIn 5#4 64 12).phase ≠ 0#4 ∧ (packReq 0b101#3 0#64 0xff#64).getLsbD 128 = true ∧
    (packReq 0b000#3 7#64 0#64).getLsbD 128 = false := by decide

/-- The machine after reset with KEY_LEN written and HASH24 accepted. -/
def startedFromReset : State :=
  { State.resetWith 64#64 with keyLen := 16#64, cr := 2#64, dr := 4#64, phase := 1#4 }

theorem started_reachable : Reachable startedFromReset :=
  .step _ _ (.step _ _ (.reset 64#64 0
    [.request (packReq 0b001#3 3#64 16#64), .request (packReq 0b001#3 0#64 2#64)]) rfl) rfl

/-- Reset, and a run in progress. -/
theorem witness_StatusReadsItsFieldsAndTwelveValues : Reachable (State.resetWith 64#64) ∧ Reachable startedFromReset :=
  ⟨.reset 64#64 0 [], started_reachable⟩

/-- Two states that differ in a state word, in M, OFF and in the buffers. -/
theorem witness_NoRequestReadsHiddenState :
    SameForHost (asking (busyIn 5#4 64 12) 0b000#3 7#64 0#64)
      (asking { busyIn 5#4 64 12 with v0 := 1#64, m := 2#64, off := 8#64, key := [], msg := [(0, 9#8)] } 0b000#3 7#64 0#64) ∧
    (asking (busyIn 5#4 64 12) 0b000#3 7#64 0#64).port = .request (packReq 0b000#3 7#64 0#64) :: [] :=
  ⟨⟨rfl, rfl, rfl, rfl, rfl, rfl, rfl, rfl, rfl, rfl, rfl, rfl⟩, rfl⟩

/-- The engine, a request and reset. -/
theorem witness_EveryStepKeepsTheInvariant :
    (∃ t, Inv (busyIn 5#4 64 12) ∧ step (busyIn 5#4 64 12) = .next t) ∧
    (∃ t, Inv (idle 64 12) ∧ step (idle 64 12) = .next t) := ⟨⟨_, inv_crnd, rfl⟩, ⟨_, inv_idle, rfl⟩⟩

theorem witness_ReachableStatesMeetRuleR50 :
    ∃ t, Reachable startedFromReset ∧ startedFromReset.phase ≠ 0#4 ∧ (∀ rest, startedFromReset.port ≠ .reset :: rest) ∧
      step startedFromReset = .next t :=
  ⟨_, started_reachable, by decide, fun _ h => (by cases h), rfl⟩

theorem witness_BuffersStayCanonicalAndInside :
    ∃ t, BuffersWf (asking (idle 64 12) 0b101#3 63#64 1#64) ∧ step (asking (idle 64 12) 0b101#3 63#64 1#64) = .next t :=
  ⟨_, ⟨rfl, rfl, rfl, rfl⟩, rfl⟩

theorem witness_CommandsAndMicroOperationsKeepTheInputs :
    Instr.hash ∈ [Instr.hash, .hash24, .init, .ldblk, .ldtail, .xin, .crnd, .xout, .xff, .frnd, .fold] ∧
    Instr.fold ∈ [Instr.hash, .hash24, .init, .ldblk, .ldtail, .xin, .crnd, .xout, .xff, .frnd, .fold] := by decide

/-- A command and one turn of the engine at the port. -/
def startAndInit (op : Op) (s : State) : State :=
  { s with port := [.request (packReq 0b001#3 0#64 op.word), .engine] }

/-- A fresh state and one that an earlier run left, for each command. -/
theorem witness_NothingCarriesOverBetweenRuns :
    ∀ op ∈ [Op.hash, Op.hash24], ∃ s t : State,
      s = startAndInit op (idle 64 12) ∧
      t = startAndInit op { idle 64 12 with
        v0 := 1#64, v1 := 2#64, v2 := 3#64, v3 := 4#64, m := 5#64, off := 8#64, rc := 4#64, cr := 9#64, dr := 9#64, last := true
        done := true, result := 7#64, rdata := some 7#64 } ∧
      s.phase = 0#4 ∧ t.phase = 0#4 ∧ s.keyLen = 16#64 ∧ s.countC op ≠ 0#64 ∧ s.countD op ≠ 0#64 ∧
      s.port = .request (packReq 0b001#3 0#64 op.word) :: .engine :: [] ∧ t.port = s.port ∧
      t.keyLen = s.keyLen ∧ t.msgLen = s.msgLen ∧ t.c = s.c ∧ t.d = s.d ∧ t.key = s.key ∧ t.msg = s.msg ∧
      t.msgCap = s.msgCap ∧ t.draws = s.draws := by
  intro op _
  refine ⟨_, _, rfl, rfl, rfl, rfl, rfl, ?_, ?_, rfl, rfl, rfl, rfl, rfl, rfl, rfl, rfl, rfl, rfl⟩
  · cases op <;> decide
  · cases op <;> decide

/-- Two states in INIT with different keys and messages. -/
theorem witness_RunShapeIsIndependentOfKeyAndMessage :
    ∃ s t s' : State, s = busyIn 1#4 64 12 ∧ t = { busyIn 1#4 64 12 with key := [], msg := [(3, 0xff#8)], v0 := 1#64 } ∧
      s.phase = 1#4 ∧ t.phase = 1#4 ∧ s.port = [] ∧ t.port = [] ∧ s.msgLen = t.msgLen ∧ s.cr = t.cr ∧ s.dr = t.dr ∧
      s.msgCap = t.msgCap ∧ run 1 s = .next s' :=
  ⟨_, _, _, rfl, rfl, rfl, rfl, rfl, rfl, rfl, rfl, rfl, rfl, rfl⟩

/-- Both clauses; in the second, the failing read at LDTAIL and at LDBLK. -/
theorem witness_RunsTakeTheListedNumberOfSteps :
    (Inv (busyIn 1#4 64 12) ∧ (busyIn 1#4 64 12).phase = 1#4 ∧ (busyIn 1#4 64 12).port = [] ∧
      (busyIn 1#4 64 12).msgLen.toNat ≤ (busyIn 1#4 64 12).msgCap.toNat) ∧
    (Inv (busyIn 1#4 10 12) ∧ (busyIn 1#4 10 12).msgCap.toNat < (busyIn 1#4 10 12).msgLen.toNat) ∧
    (Inv (busyIn 1#4 7 8) ∧ (busyIn 1#4 7 8).msgCap.toNat < (busyIn 1#4 7 8).msgLen.toNat) :=
  ⟨⟨inv_init, rfl, rfl, by decide⟩, ⟨inv_init_past, by decide⟩, ⟨inv_init_past_block, by decide⟩⟩

/-- The two sides of R255 with the numbers the rule gives: 12 steps, 17 steps; V-F5, V-F11. -/
theorem test_steps : doneSteps 0 2 4 = 12 ∧ doneSteps 12 2 4 = 17 ∧ failSteps 10 2 = 7 ∧ failSteps 7 2 = 2 := by decide

theorem witness_AcceptedCommandComputesSipHash :
    ∀ op ∈ [Op.hash, Op.hash24], ∃ s : State, s = asking (idle 64 12) 0b001#3 0#64 op.word ∧
      s.phase = 0#4 ∧ s.port = [.request (packReq 0b001#3 0#64 op.word)] ∧ s.keyLen = 16#64 ∧
      1 ≤ (s.countC op).toNat ∧ 1 ≤ (s.countD op).toNat ∧ s.msgLen.toNat ≤ s.msgCap.toNat ∧
      (∀ i, i < 16 → s.key.read? i = some (BitVec.ofNat 8 i)) ∧
      (∀ i, i < s.msgLen.toNat → s.msg.read? i = some (BitVec.ofNat 8 i)) := by
  intro op _
  refine ⟨_, rfl, rfl, rfl, rfl, ?_, ?_, ?_, ?_, ?_⟩
  · cases op <;> decide
  · cases op <;> decide
  · show (BitVec.ofNat 64 12).toNat ≤ (BitVec.ofNat 64 64).toNat
    decide
  · show ∀ i, i < 16 → Buffer.read? (seqBytes 16) i = some (BitVec.ofNat 8 i)
    decide
  · show ∀ i, i < (BitVec.ofNat 64 12).toNat → Buffer.read? (seqBytes 12) i = some (BitVec.ofNat 8 i)
    decide

/-- Sixteen turns of the engine before the last, a write and a read among them. -/
def interleaved : List Event :=
  .request (packReq 0b011#3 0#64 0xff#64) :: .engine :: .request (packReq 0b000#3 1#64 0#64) :: List.replicate 15 .engine

theorem witness_InterleavedRequestsDoNotChangeTheHash :
    ∃ s : State, s = { idle 64 12 with port := .request (packReq 0b001#3 0#64 Op.hash.word) :: (interleaved ++ .engine :: []) } ∧
      s.phase = 0#4 ∧ s.keyLen = 16#64 ∧ 1 ≤ (s.countC .hash).toNat ∧ 1 ≤ (s.countD .hash).toNat ∧
      s.msgLen.toNat ≤ s.msgCap.toNat ∧
      (∀ i, i < 16 → s.key.read? i = some (BitVec.ofNat 8 i)) ∧
      (∀ i, i < s.msgLen.toNat → s.msg.read? i = some (BitVec.ofNat 8 i)) ∧
      Event.reset ∉ interleaved ∧
      engineTurns interleaved + 1 = doneSteps s.msgLen.toNat (s.countC .hash).toNat (s.countD .hash).toNat := by
  refine ⟨_, rfl, rfl, rfl, by decide, by decide, by decide, by decide, by decide, by decide, by decide⟩

end Sys2Proof.Tests
end

section
/-! The scope of the step (spec/00_scope.md R6): the port serves a request by running what it decodes to. -/

namespace Sys2Proof.Machine

open Sys2Proof

/-- The rule of a decodable request: taken off the port, it is the meaning of its instruction. -/
theorem step_decoded_request {s : State} {w : ReqWord} {rest : List Event} {i : Instr}
    (hport : s.port = .request w :: rest) (hdecode : decodeReq w = .ok i) :
    step s = exec i (s.takeRequest rest) := by
  rw [step_request hport, serveRequest_ok hdecode]

/-- Settles O5: the request rule, with `takeRequest` written out as its record update. -/
theorem stepRunsTheDecodedRequest : Obligations.StepRunsTheDecodedRequest := by
  intro s w rest i hport hdecode
  exact step_decoded_request hport hdecode

end Sys2Proof.Machine
end

section
/-! The invariant of spec/10_state.md R50, restated the way a run goes: what IDLE keeps of it, what holds throughout a
run, and the point of the run that PHASE, OFF, RC and LAST are at. Each step is then an edge of the phase diagram. -/

namespace Sys2Proof.Machine

open Sys2Proof

/-- The phase codes as numerals (R27), for telling two phases apart. -/
theorem phase_codes :
    Phase.idle = 0#4 ∧ Phase.init = 1#4 ∧ Phase.ldblk = 2#4 ∧ Phase.ldtail = 3#4 ∧ Phase.xin = 4#4 ∧ Phase.crnd = 5#4 ∧
    Phase.xout = 6#4 ∧ Phase.xff = 7#4 ∧ Phase.frnd = 8#4 ∧ Phase.fold = 9#4 := by decide

/-! ### The invariant in IDLE -/

/-- In IDLE the invariant speaks of OFF's alignment and of the outcome registers alone. -/
theorem Inv.of_idle {s : State} (hphase : s.phase = Phase.idle) (haligned : s.off.toNat % 8 = 0)
    (hone : s.done = true → s.error = false) (herr : s.err ≠ 0#8 ↔ s.error = true)
    (hresult : s.done = false → s.result = 0#64) (hlegal : s.err.toNat ≤ 3) : Inv s where
  phaseLegal := by simp [hphase, phase_codes]
  offAligned := haligned
  offInside h := absurd hphase h
  countsPositive h := absurd hphase h
  crndCount := by simp [hphase, phase_codes]
  frndCount := by simp [hphase, phase_codes]
  tailShort := by simp [hphase, phase_codes]
  blockFits := by simp [hphase, phase_codes]
  lastSet := by simp [hphase, phase_codes]
  oneFlag := ⟨by simp [State.busy, hphase], hone⟩
  errIffError := herr
  resultZero := hresult
  blockHeld := by simp [hphase, phase_codes]
  keyLenChecked h := absurd hphase h
  errLegal := hlegal

/-- The codes of R37 are not 0 and at most 3. -/
theorem ErrorKind.code_legal (e : ErrorKind) : e.code ≠ 0#8 ∧ e.code.toNat ≤ 3 := by
  cases e <;> decide

/-- Taking an error with no result delivered leads to a state that meets the invariant (R216). -/
theorem Inv.errorEntry {s : State} (haligned : s.off.toNat % 8 = 0) (hdone : s.done = false)
    (hresult : s.result = 0#64) (e : ErrorKind) : Inv (s.errorEntry e) := by
  obtain ⟨hcode, hlegal⟩ := e.code_legal
  exact .of_idle rfl haligned (by simp [hdone]) (by simp [hcode]) (fun _ => hresult) hlegal

/-- Settles O44: after reset the engine is in IDLE, OFF is 0 and the outcome is clear. -/
theorem resetMeetsTheInvariant : Obligations.ResetMeetsTheInvariant := fun cap =>
  .of_idle (s := State.resetWith cap) rfl rfl (fun _ => rfl) (by simp [State.resetWith]) (fun _ => rfl) (Nat.zero_le 3)

/-! ### What the invariant does not read -/

/-- The invariant reads neither the state words and M, nor C and D, nor the buffers, nor the model's own fields. -/
theorem Inv.of_eq_except_unread {s t : State} (h : Inv s) (ht : t = { s with
      v0 := t.v0, v1 := t.v1, v2 := t.v2, v3 := t.v3, m := t.m, c := t.c, d := t.d, key := t.key, msg := t.msg
      msgCap := t.msgCap, draws := t.draws, port := t.port, rdata := t.rdata }) : Inv t := by
  rw [ht]
  exact { h with }

/-- In IDLE the invariant does not read the configuration either. -/
theorem Inv.configWrite {s : State} (h : Inv s) (hphase : s.phase = Phase.idle) (addr wdata : Word) :
    Inv (s.configWrite addr wdata) := by
  rw [State.configWrite_keeps s addr wdata _ rfl]
  exact .of_idle hphase h.offAligned h.oneFlag.2 h.errIffError h.resultZero h.errLegal

theorem Inv.memWrite {s : State} (h : Inv s) (sp : Space) (addr wdata : Word) : Inv (s.memWrite sp addr wdata) := by
  rw [State.memWrite_keeps s sp addr wdata _ rfl]
  exact h.of_eq_except_unread rfl

/-! ### The invariant during a run -/

/-- What acceptance establishes and no micro-operation but the last of a run touches (R184, R188). -/
structure Running (s : State) : Prop where
  counts : 1 ≤ s.cr.toNat ∧ 1 ≤ s.dr.toNat
  keyLen : s.keyLen = 16#64
  done : s.done = false
  error : s.error = false
  err : s.err = 0#8
  result : s.result = 0#64

/-- OFF lies inside the message, and so does a full block held in M (R28). -/
def BlockInside (s : State) : Prop :=
  s.off.toNat ≤ s.msgLen.toNat ∧ (s.last = false → 8 ≤ s.msgLen.toNat - s.off.toNat)

/-- The points of a run (R27): for each phase what R50 says of OFF, RC and LAST there. -/
inductive RunPoint (s : State) : Prop where
  | init (hp : s.phase = Phase.init)
  | ldblk (hp : s.phase = Phase.ldblk) (inside : s.off.toNat ≤ s.msgLen.toNat) (fits : 8 ≤ s.msgLen.toNat - s.off.toNat)
  | ldtail (hp : s.phase = Phase.ldtail) (inside : s.off.toNat ≤ s.msgLen.toNat) (short : s.msgLen.toNat - s.off.toNat ≤ 7)
  | xin (hp : s.phase = Phase.xin) (block : BlockInside s)
  | crnd (hp : s.phase = Phase.crnd) (block : BlockInside s) (count : s.rc.toNat < s.cr.toNat)
  | xout (hp : s.phase = Phase.xout) (block : BlockInside s)
  | xff (hp : s.phase = Phase.xff) (inside : s.off.toNat ≤ s.msgLen.toNat) (last : s.last = true)
  | frnd (hp : s.phase = Phase.frnd) (inside : s.off.toNat ≤ s.msgLen.toNat) (last : s.last = true)
      (count : s.rc.toNat < s.dr.toNat)
  | fold (hp : s.phase = Phase.fold) (inside : s.off.toNat ≤ s.msgLen.toNat) (last : s.last = true)

theorem Inv.running {s : State} (h : Inv s) (hbusy : s.phase ≠ Phase.idle) : Running s := by
  obtain ⟨hdone, herror⟩ := h.oneFlag.1 (State.busy_eq_true.mpr hbusy)
  have herr : s.err = 0#8 := by
    by_contra hne
    rw [h.errIffError.mp hne] at herror
    cases herror
  exact ⟨h.countsPositive hbusy, h.keyLenChecked hbusy, hdone, herror, herr, h.resultZero hdone⟩

theorem Inv.blockInside {s : State} (h : Inv s)
    (hp : s.phase = Phase.xin ∨ s.phase = Phase.crnd ∨ s.phase = Phase.xout) : BlockInside s := by
  refine ⟨h.offInside ?_ ?_, h.blockHeld hp⟩ <;> rcases hp with e | e | e <;> rw [e] <;> decide

/-- A state that meets the invariant in a phase of a run is at that point of the run. -/
theorem Inv.runPoint {s : State} (h : Inv s) {i : Instr} (hd : decodeUop s.phase = .ok i) : RunPoint s := by
  have inside {p : PhaseCode} (hp : s.phase = p) (hidle : p ≠ Phase.idle) (hinit : p ≠ Phase.init) :
      s.off.toNat ≤ s.msgLen.toNat := h.offInside (hp ▸ hidle) (hp ▸ hinit)
  rcases decodeUop_cases s.phase with ⟨_, e⟩ | ⟨hp, _⟩ | ⟨hp, _⟩ | ⟨hp, _⟩ | ⟨hp, _⟩ | ⟨hp, _⟩ | ⟨hp, _⟩ | ⟨hp, _⟩ |
    ⟨hp, _⟩ | ⟨hp, _⟩ | ⟨_, e⟩
  · rw [e] at hd
    cases hd
  · exact .init hp
  · exact .ldblk hp (inside hp (by decide) (by decide)) (h.blockFits hp)
  · exact .ldtail hp (inside hp (by decide) (by decide)) (h.tailShort hp)
  · exact .xin hp (h.blockInside (.inl hp))
  · exact .crnd hp (h.blockInside (.inr (.inl hp))) (h.crndCount hp)
  · exact .xout hp (h.blockInside (.inr (.inr hp)))
  · exact .xff hp (inside hp (by decide) (by decide)) (h.lastSet (.inl hp))
  · exact .frnd hp (inside hp (by decide) (by decide)) (h.lastSet (.inr (.inl hp))) (h.frndCount hp)
  · exact .fold hp (inside hp (by decide) (by decide)) (h.lastSet (.inr (.inr hp)))
  · rw [e] at hd
    cases hd

/-- A point of a run meets the invariant. -/
theorem Running.inv {s : State} (r : Running s) (haligned : s.off.toNat % 8 = 0) (p : RunPoint s) : Inv s where
  phaseLegal := by cases p <;> simp [*, phase_codes]
  offAligned := haligned
  offInside _ hinit := by
    cases p with
    | init hp => exact absurd hp hinit
    | xin _ block | crnd _ block | xout _ block => exact block.1
    | _ => assumption
  countsPositive _ := r.counts
  crndCount := by cases p <;> simp [*, phase_codes]
  frndCount := by cases p <;> simp [*, phase_codes]
  tailShort := by cases p <;> simp [*, phase_codes]
  blockFits := by cases p <;> simp [*, phase_codes]
  lastSet := by cases p <;> simp [*, phase_codes]
  oneFlag := ⟨fun _ => ⟨r.done, r.error⟩, fun _ => r.error⟩
  errIffError := by simp [r.err, r.error]
  resultZero _ := r.result
  blockHeld hp := by
    cases p with
    | xin _ block | crnd _ block | xout _ block => exact block.2
    | _ => simp [*, phase_codes] at hp
  keyLenChecked _ := r.keyLen
  errLegal := by simp [r.err]

/-- A run goes on: the working registers move, the rest of the run's state stays. -/
theorem Running.inv_of_moved {s t : State} (r : Running s) (ht : t = { s with
      v0 := t.v0, v1 := t.v1, v2 := t.v2, v3 := t.v3, m := t.m, phase := t.phase, off := t.off, rc := t.rc
      last := t.last, draws := t.draws }) (haligned : t.off.toNat % 8 = 0) (p : RunPoint t) : Inv t := by
  have rt : Running t := by
    rw [ht]
    exact { r with }
  exact rt.inv haligned p

/-! ### One edge of the phase diagram per micro-operation -/

/-- The load that `next_load` selects is a point of the run, at an offset inside the message (R29). -/
theorem RunPoint.of_nextLoad {s t : State} (hphase : t.phase = s.nextLoad t.off) (hlen : t.msgLen = s.msgLen)
    (hinside : t.off.toNat ≤ s.msgLen.toNat) : RunPoint t := by
  rw [← hlen] at hinside
  rcases State.nextLoad_cases s t.off (hlen ▸ hinside) with ⟨h, e⟩ | ⟨h, e⟩ <;> rw [e] at hphase <;> rw [← hlen] at h
  · exact .ldblk hphase hinside h
  · exact .ldtail hphase hinside h

theorem execInit_inv {s t : State} (r : Running s) (he : execInit s = .next t) : Inv t := by
  rw [execInit_eq] at he
  cases he
  exact r.inv_of_moved rfl rfl (.of_nextLoad (s := s) rfl rfl (Nat.zero_le _))

theorem execLdblk_inv {s t : State} (r : Running s) (haligned : s.off.toNat % 8 = 0)
    (inside : s.off.toNat ≤ s.msgLen.toNat) (fits : 8 ≤ s.msgLen.toNat - s.off.toNat) (he : execLdblk s = .next t) :
    Inv t := by
  rcases execLdblk_cases s with ⟨_, e⟩ | ⟨_, e⟩ <;> rw [e] at he <;> cases he
  · exact .errorEntry haligned r.done r.result _
  · exact r.inv_of_moved rfl haligned (.xin rfl ⟨inside, fun _ => fits⟩)

theorem execLdtail_inv {s t : State} (r : Running s) (haligned : s.off.toNat % 8 = 0)
    (inside : s.off.toNat ≤ s.msgLen.toNat) (he : execLdtail s = .next t) : Inv t := by
  rcases execLdtail_cases s with ⟨_, e⟩ | ⟨_, _, e⟩ | ⟨_, _, e⟩ <;> rw [e] at he <;> cases he
  · exact .errorEntry haligned r.done r.result _
  · exact r.inv_of_moved rfl haligned (.xin rfl ⟨inside, by simp⟩)
  · exact r.inv_of_moved rfl haligned (.xin rfl ⟨inside, by simp⟩)

theorem execXin_inv {s t : State} (r : Running s) (haligned : s.off.toNat % 8 = 0) (block : BlockInside s)
    (he : execXin s = .next t) : Inv t := by
  cases he
  exact r.inv_of_moved rfl haligned (.crnd rfl block r.counts.1)

/-- Below a count that the successor does not reach, the successor is below it too: RC never wraps (R30). -/
theorem toNat_succ_lt_of_ne {rc n : Word} (hlt : rc.toNat < n.toNat) (hne : rc + 1#64 ≠ n) : (rc + 1#64).toNat < n.toNat := by
  bv_omega

theorem execCrnd_inv {s t : State} (r : Running s) (haligned : s.off.toNat % 8 = 0) (block : BlockInside s)
    (count : s.rc.toNat < s.cr.toNat) (he : execCrnd s = .next t) : Inv t := by
  cases he
  by_cases hlast : s.rc + 1#64 = s.cr
  · exact r.inv_of_moved rfl haligned (.xout (if_pos hlast) block)
  · exact r.inv_of_moved rfl haligned (.crnd (if_neg hlast) block (toNat_succ_lt_of_ne count hlast))

theorem execXout_inv {s t : State} (r : Running s) (haligned : s.off.toNat % 8 = 0) (block : BlockInside s)
    (he : execXout s = .next t) : Inv t := by
  obtain ⟨inside, held⟩ := block
  rcases execXout_cases s with ⟨hlast, e⟩ | ⟨hlast, e⟩ <;> rw [e] at he <;> cases he
  · exact r.inv_of_moved rfl haligned (.xff rfl inside hlast)
  · have hfits := held hlast
    have hoff : (s.off + 8#64).toNat = s.off.toNat + 8 := by bv_omega
    refine r.inv_of_moved rfl ?_ (.of_nextLoad (s := s) rfl rfl ?_)
    · show (s.off + 8#64).toNat % 8 = 0
      omega
    · show (s.off + 8#64).toNat ≤ s.msgLen.toNat
      omega

theorem execXff_inv {s t : State} (r : Running s) (haligned : s.off.toNat % 8 = 0)
    (inside : s.off.toNat ≤ s.msgLen.toNat) (last : s.last = true) (he : execXff s = .next t) : Inv t := by
  cases he
  exact r.inv_of_moved rfl haligned (.frnd rfl inside last r.counts.2)

theorem execFrnd_inv {s t : State} (r : Running s) (haligned : s.off.toNat % 8 = 0)
    (inside : s.off.toNat ≤ s.msgLen.toNat) (last : s.last = true) (count : s.rc.toNat < s.dr.toNat)
    (he : execFrnd s = .next t) : Inv t := by
  cases he
  by_cases hend : s.rc + 1#64 = s.dr
  · exact r.inv_of_moved rfl haligned (.fold (if_pos hend) inside last)
  · exact r.inv_of_moved rfl haligned (.frnd (if_neg hend) inside last (toNat_succ_lt_of_ne count hend))

/-- FOLD ends the run: DONE is set and ERROR stays clear (R166). -/
theorem execFold_inv {s t : State} (r : Running s) (haligned : s.off.toNat % 8 = 0) (he : execFold s = .next t) :
    Inv t := by
  cases he
  exact .of_idle rfl haligned (fun _ => r.error) (by simp [r.err, r.error]) (by simp) (by simp [r.err])

/-- The micro-operation that PHASE selects keeps the invariant. -/
theorem exec_uop_inv {s t : State} {i : Instr} (h : Inv s) (hd : decodeUop s.phase = .ok i) (he : exec i s = .next t) :
    Inv t := by
  have hbusy : s.phase ≠ Phase.idle := by
    intro hidle
    rw [hidle] at hd
    cases hd
  have r := h.running hbusy
  have ha := h.offAligned
  cases h.runPoint hd with
  | init hp => rw [hp] at hd; cases hd; exact execInit_inv r he
  | ldblk hp inside fits => rw [hp] at hd; cases hd; exact execLdblk_inv r ha inside fits he
  | ldtail hp inside _ => rw [hp] at hd; cases hd; exact execLdtail_inv r ha inside he
  | xin hp block => rw [hp] at hd; cases hd; exact execXin_inv r ha block he
  | crnd hp block count => rw [hp] at hd; cases hd; exact execCrnd_inv r ha block count he
  | xout hp block => rw [hp] at hd; cases hd; exact execXout_inv r ha block he
  | xff hp inside last => rw [hp] at hd; cases hd; exact execXff_inv r ha inside last he
  | frnd hp inside last count => rw [hp] at hd; cases hd; exact execFrnd_inv r ha inside last count he
  | fold hp _ _ => rw [hp] at hd; cases hd; exact execFold_inv r ha he

/-! ### Requests and the step -/

/-- Acceptance ends in an error with the outcome cleared, or starts a run at INIT (R184). -/
theorem Inv.accept {s : State} (h : Inv s) (op : Op) : Inv (s.accept op) := by
  rcases State.accept_cases s op with ⟨_, e⟩ | ⟨_, _, e⟩ | ⟨hkey, hc, hd, e⟩ <;> rw [e]
  · exact .errorEntry (s := s.clearOutcome) h.offAligned rfl rfl _
  · exact .errorEntry (s := s.clearOutcome) h.offAligned rfl rfl _
  · have hcounts : 1 ≤ (s.countC op).toNat ∧ 1 ≤ (s.countD op).toNat := by bv_omega
    exact Running.inv ⟨hcounts, hkey, rfl, rfl, rfl, rfl⟩ h.offAligned (.init rfl)

theorem serveRequest_inv {s t : State} {w : ReqWord} (h : Inv s) (he : serveRequest w s = .next t) : Inv t := by
  rcases serveRequest_effects he with ⟨v, rfl⟩ | rfl | ⟨_, _, rfl⟩ | ⟨_, _, rfl⟩ | ⟨hidle, addr, wdata, rfl⟩ |
    ⟨_, sp, addr, wdata, rfl⟩
  · exact h.of_eq_except_unread rfl
  · exact h
  · exact h.accept .hash
  · exact h.accept .hash24
  · exact h.configWrite hidle addr wdata
  · exact h.memWrite sp addr wdata

theorem Inv.setPort {s : State} (h : Inv s) (p : List Event) : Inv (s.setPort p) := h.of_eq_except_unread rfl

/-- Settles O45: whatever the step is, the engine's wait, a micro-operation, a request or reset, it keeps the invariant. -/
theorem everyStepKeepsTheInvariant : Obligations.EveryStepKeepsTheInvariant := by
  intro s t h hstep
  rcases step_cases hstep with ⟨u, _, rfl, rfl, _⟩ | ⟨u, i, rfl, hd, he, _⟩ | ⟨w, rest, _, he⟩ | ⟨rest, _, rfl⟩
  · exact h.setPort _
  · exact exec_uop_inv (h.setPort _) hd he
  · exact serveRequest_inv (h.of_eq_except_unread (t := s.takeRequest rest) rfl) he
  · exact (resetMeetsTheInvariant s.msgCap).of_eq_except_unread rfl

end Sys2Proof.Machine
end

section
/-! Reachable states (spec/10_state.md R50), and the values of STATUS they show (R36). -/

namespace Sys2Proof.Machine

open Sys2Proof

/-- The invariant holds at reset, no schedule touches it, and every step keeps it. -/
theorem Reachable.inv {s : State} (h : Reachable s) : Inv s := by
  induction h with
  | reset msgCap draws port => exact (resetMeetsTheInvariant msgCap).of_eq_except_unread rfl
  | schedule s port _ ih => exact ih.setPort port
  | step s t _ hstep ih => exact everyStepKeepsTheInvariant s t ih hstep

/-- Item 8 of R50: the configuration, the buffers and the counts in effect are the same. -/
def SameLocked (s t : State) : Prop :=
  t.keyLen = s.keyLen ∧ t.msgLen = s.msgLen ∧ t.c = s.c ∧ t.d = s.d ∧ t.key = s.key ∧ t.msg = s.msg ∧
  t.cr = s.cr ∧ t.dr = s.dr

/-- A micro-operation writes none of them. -/
theorem exec_uop_sameLocked {s t : State} {i : Instr} (hd : decodeUop s.phase = .ok i) (he : exec i s = .next t) :
    SameLocked s t := by
  rw [exec_uop_keeps hd he]
  exact ⟨rfl, rfl, rfl, rfl, rfl, rfl, rfl, rfl⟩

/-- While the engine is busy a request is at most answered: every write of it is dropped (R250). -/
theorem serveRequest_busy {w : ReqWord} {s t : State} (hbusy : s.phase ≠ Phase.idle) (he : serveRequest w s = .next t) :
    t = s ∨ ∃ v, t = s.respond v := by
  rcases serveRequest_effects he with hv | hs | ⟨hp, _⟩ | ⟨hp, _⟩ | ⟨hp, _⟩ | ⟨hp, _⟩
  · exact .inr hv
  · exact .inl hs
  all_goals exact absurd hp hbusy

/-- Item 8 of R50, from every state: while PHASE is not IDLE no step but reset changes what the lock protects. -/
theorem step_busy_sameLocked {s t : State} (hbusy : s.phase ≠ Phase.idle) (hreset : ∀ rest, s.port ≠ .reset :: rest)
    (hstep : step s = .next t) : SameLocked s t := by
  rcases step_cases hstep with ⟨u, hidle, rfl, _⟩ | ⟨u, i, rfl, hd, he, _⟩ | ⟨w, rest, _, he⟩ | ⟨rest, hp, _⟩
  · exact absurd hidle hbusy
  · exact exec_uop_sameLocked (s := s.setPort s.port.tail) hd he
  · rcases serveRequest_busy (s := s.takeRequest rest) hbusy he with rfl | ⟨v, rfl⟩ <;>
      exact ⟨rfl, rfl, rfl, rfl, rfl, rfl, rfl, rfl⟩
  · exact absurd hp (hreset rest)

/-- Settles O46: items 1 to 7 by the invariant, item 8 by the write lock and the micro-operations' frame. -/
theorem reachableStatesMeetRuleR50 : Obligations.ReachableStatesMeetRuleR50 :=
  ⟨fun _ hs => hs.inv.toRuleR50, fun _ _ _ hbusy hreset hstep => step_busy_sameLocked hbusy hreset hstep⟩

/-! ### STATUS -/

/-- Each field of the STATUS word at its bits (R36). -/
theorem statusWord_fields (s : State) :
    s.statusWord.getLsbD 0 = s.busy ∧ s.statusWord.getLsbD 1 = s.done ∧ s.statusWord.getLsbD 2 = s.error ∧
    s.statusWord.getLsbD 3 = false ∧ s.statusWord.extractLsb' 4 4 = s.phase ∧ s.statusWord.extractLsb' 8 56 = 0#56 := by
  have all : ∀ (p : PhaseCode) (e d b : Bool),
      let v := (p.setWidth 64 <<< 4) ||| (flagWord e <<< 2) ||| (flagWord d <<< 1) ||| flagWord b
      v.getLsbD 0 = b ∧ v.getLsbD 1 = d ∧ v.getLsbD 2 = e ∧ v.getLsbD 3 = false ∧ v.extractLsb' 4 4 = p ∧
      v.extractLsb' 8 56 = 0#56 := by decide
  exact all s.phase s.error s.done s.busy

/-- In IDLE at most one of DONE and ERROR is set: three words (R36). -/
theorem statusWord_idle {s : State} (hidle : s.phase = Phase.idle) (hone : s.done = true → s.error = false) :
    s.statusWord ∈ [0x00#64, 0x02#64, 0x04#64] := by
  have hbusy := State.busy_eq_false.mpr hidle
  cases hd : s.done
  · cases he : s.error <;> simp [State.statusWord, hidle, hbusy, hd, he, flagWord, phase_codes]
  · simp [State.statusWord, hidle, hbusy, hd, hone hd, flagWord, phase_codes]

/-- During a run BUSY alone is set beside one of the nine codes (R36). -/
theorem statusWord_running {s : State} (hbusy : s.phase ≠ Phase.idle) (hlegal : s.phase.toNat ≤ 9) (r : Running s) :
    s.statusWord ∈ [0x11#64, 0x21#64, 0x31#64, 0x41#64, 0x51#64, 0x61#64, 0x71#64, 0x81#64, 0x91#64] := by
  have all : ∀ p : PhaseCode, p ≠ Phase.idle → p.toNat ≤ 9 → (p.setWidth 64 <<< 4) ||| 1#64 ∈
      [0x11#64, 0x21#64, 0x31#64, 0x41#64, 0x51#64, 0x61#64, 0x71#64, 0x81#64, 0x91#64] := by decide
  have hword : s.statusWord = (s.phase.setWidth 64 <<< 4) ||| 1#64 := by
    simp [State.statusWord, State.busy_eq_true.mpr hbusy, r.done, r.error, flagWord]
  rw [hword]
  exact all s.phase hbusy hlegal

/-- The twelve values of STATUS that a state meeting the invariant shows (R36). -/
theorem Inv.statusWord_mem {s : State} (h : Inv s) : s.statusWord ∈
    [0x00#64, 0x02#64, 0x04#64, 0x11#64, 0x21#64, 0x31#64, 0x41#64, 0x51#64, 0x61#64, 0x71#64, 0x81#64, 0x91#64] := by
  by_cases hidle : s.phase = Phase.idle
  · exact List.mem_append_left _ (statusWord_idle hidle h.oneFlag.2)
  · exact List.mem_append_right [0x00#64, 0x02#64, 0x04#64] (statusWord_running hidle h.phaseLegal (h.running hidle))

/-- Settles O42: the read of CSR 1 answers the STATUS word, whose fields and reachable values are above. -/
theorem statusReadsItsFieldsAndTwelveValues : Obligations.StatusReadsItsFieldsAndTwelveValues :=
  ⟨fun s => ⟨s.statusWord, rfl, statusWord_fields s⟩, fun s hs => ⟨s.statusWord, rfl, hs.inv.statusWord_mem⟩⟩

end Sys2Proof.Machine
end

section
/-! What a host can see (spec/10_state.md R25): requests neither read nor reveal the hidden registers and the buffers. -/

namespace Sys2Proof.Machine

open Sys2Proof

theorem SameForHost.symm {s t : State} (h : SameForHost s t) : SameForHost t s :=
  ⟨h.phase.symm, h.done.symm, h.error.symm, h.err.symm, h.result.symm, h.keyLen.symm, h.msgLen.symm, h.c.symm, h.d.symm,
    h.msgCap.symm, h.port.symm, h.rdata.symm⟩

theorem SameForHost.trans {s t u : State} (h : SameForHost s t) (g : SameForHost t u) : SameForHost s u :=
  ⟨h.phase.trans g.phase, h.done.trans g.done, h.error.trans g.error, h.err.trans g.err, h.result.trans g.result,
    h.keyLen.trans g.keyLen, h.msgLen.trans g.msgLen, h.c.trans g.c, h.d.trans g.d, h.msgCap.trans g.msgCap,
    h.port.trans g.port, h.rdata.trans g.rdata⟩

/-! ### What a request reads -/

theorem SameForHost.busy {s t : State} (h : SameForHost s t) : s.busy = t.busy := by
  simp only [State.busy, h.phase]

/-- Every CSR reads the same (R190). -/
theorem SameForHost.csrRead {s t : State} (h : SameForHost s t) (addr : Word) : s.csrRead addr = t.csrRead addr := by
  have hstatus : s.statusWord = t.statusWord := by
    simp only [State.statusWord, h.phase, h.error, h.done, h.busy]
  simp only [State.csrRead, hstatus, h.err, h.keyLen, h.msgLen, h.c, h.d, h.result, h.msgCap]

theorem SameForHost.countC {s t : State} (h : SameForHost s t) (op : Op) : s.countC op = t.countC op := by
  cases op with
  | hash => exact h.c
  | hash24 => rfl

theorem SameForHost.countD {s t : State} (h : SameForHost s t) (op : Op) : s.countD op = t.countD op := by
  cases op with
  | hash => exact h.d
  | hash24 => rfl

/-! ### What a request does -/

theorem SameForHost.takeRequest {s t : State} (h : SameForHost s t) (p : List Event) :
    SameForHost (s.takeRequest p) (t.takeRequest p) :=
  { h with port := rfl, rdata := rfl }

theorem SameForHost.respond {s t : State} (h : SameForHost s t) (v : Word) : SameForHost (s.respond v) (t.respond v) :=
  { h with rdata := rfl }

theorem SameForHost.clearOutcome {s t : State} (h : SameForHost s t) : SameForHost s.clearOutcome t.clearOutcome :=
  { h with done := rfl, error := rfl, err := rfl, result := rfl }

theorem SameForHost.errorEntry {s t : State} (h : SameForHost s t) (e : ErrorKind) :
    SameForHost (s.errorEntry e) (t.errorEntry e) :=
  { h with phase := rfl, error := rfl, err := rfl }

/-- Acceptance decides by KEY_LEN and the counts; the latched counts are hidden (R184). -/
theorem SameForHost.accept {s t : State} (h : SameForHost s t) (op : Op) : SameForHost (s.accept op) (t.accept op) := by
  simp only [State.accept, h.keyLen, h.countC, h.countD]
  split_ifs
  · exact h.clearOutcome.errorEntry _
  · exact h.clearOutcome.errorEntry _
  · exact { h.clearOutcome with phase := rfl }

theorem SameForHost.configWrite {s t : State} (h : SameForHost s t) (addr wdata : Word) :
    SameForHost (s.configWrite addr wdata) (t.configWrite addr wdata) := by
  unfold State.configWrite
  split_ifs
  · exact { h with keyLen := rfl }
  · exact { h with msgLen := rfl }
  · exact { h with c := rfl }
  · exact { h with d := rfl }
  · exact h

/-- A byte write is hidden: it touches a buffer alone (R66). -/
theorem sameForHost_memWrite (s : State) (sp : Space) (addr wdata : Word) : SameForHost (s.memWrite sp addr wdata) s := by
  rw [State.memWrite_keeps s sp addr wdata _ rfl]
  exact ⟨rfl, rfl, rfl, rfl, rfl, rfl, rfl, rfl, rfl, rfl, rfl, rfl⟩

theorem SameForHost.memWrite {s t : State} (h : SameForHost s t) (sp : Space) (addr wdata : Word) :
    SameForHost (s.memWrite sp addr wdata) (t.memWrite sp addr wdata) :=
  ((sameForHost_memWrite s sp addr wdata).trans h).trans (sameForHost_memWrite t sp addr wdata).symm

/-! ### A whole request -/

/-- Two outcomes that are states no one request tells apart. -/
def SameOutcome (a b : Host.Outcome State Fault Refusal) : Prop :=
  ∃ s t : State, a = .next s ∧ b = .next t ∧ SameForHost s t

theorem SameForHost.outcome {s t : State} (h : SameForHost s t) : SameOutcome (.next s) (.next t) := ⟨s, t, rfl, rfl, h⟩

/-- A CSRW, commands among it, does the same to both (R191, R184, R250). -/
theorem SameForHost.exec_csrw {s t : State} (h : SameForHost s t) (addr wdata : Word) :
    SameOutcome (exec (decodeCsrw addr wdata) s) (exec (decodeCsrw addr wdata) t) := by
  cases hs : s.busy
  · rw [exec_decodeCsrw_idle hs, exec_decodeCsrw_idle (h.busy ▸ hs)]
    split_ifs
    · exact (h.accept .hash).outcome
    · exact (h.accept .hash24).outcome
    · exact h.outcome
    · exact (h.configWrite addr wdata).outcome
  · rw [exec_decodeCsrw_busy hs, exec_decodeCsrw_busy (h.busy ▸ hs)]
    exact h.outcome

theorem SameForHost.reservedRequest {s t : State} (h : SameForHost s t) (r : Rejection) :
    SameForHost (s.reservedRequest r) (t.reservedRequest r) := by
  cases r with
  | reservedKeyRead | reservedMsgRead | reservedSpaceRead => exact h.respond 0#64
  | reservedSpaceWrite | reservedCommand | idlePhase | reservedPhase => exact h

/-- The port serves the same request word alike in both states, whatever its kind (R91, R107). -/
theorem SameForHost.serveRequest {s t : State} (h : SameForHost s t) (w : ReqWord) :
    SameOutcome (serveRequest w s) (serveRequest w t) := by
  have reserved {r : Rejection} (e : decodeReq w = .error r) :
      SameOutcome (Machine.serveRequest w s) (Machine.serveRequest w t) := by
    rw [serveRequest_error e, serveRequest_error e]
    exact (h.reservedRequest r).outcome
  rcases decodeReq_cases w with ⟨_, e⟩ | ⟨_, e⟩ | ⟨_, e⟩ | ⟨_, e⟩ | ⟨_, e⟩ | ⟨_, e⟩ | ⟨_, e⟩ | ⟨_, e⟩
  · rw [serveRequest_ok e, serveRequest_ok e]
    have hresponse := h.respond (s.csrRead (reqAddr w))
    exact ⟨_, _, rfl, rfl, h.csrRead (reqAddr w) ▸ hresponse⟩
  · rw [serveRequest_ok e, serveRequest_ok e]
    exact h.exec_csrw _ _
  · rw [serveRequest_ok e, serveRequest_ok e]
    exact (h.memWrite .key _ _).outcome
  · rw [serveRequest_ok e, serveRequest_ok e]
    exact (h.memWrite .msg _ _).outcome
  · exact reserved e
  · exact reserved e
  · exact reserved e
  · exact reserved e

/-- Settles O43: both ports take the same request off, and serving it reads nothing hidden. -/
theorem noRequestReadsHiddenState : Obligations.NoRequestReadsHiddenState := by
  intro s t w rest h hport
  rw [step_request hport, step_request (h.port ▸ hport)]
  exact (h.takeRequest rest).serveRequest w

end Sys2Proof.Machine
end

section
/-! Nothing carries over between runs (spec/10_state.md R22, R47): INIT and acceptance overwrite every register but the
inputs. -/

namespace Sys2Proof.Machine

open Sys2Proof

/-- The state that agrees with `s` on the inputs of a run, and is as after reset in every other register. -/
def State.inputsOnly (s : State) : State :=
  { State.resetWith s.msgCap with
    keyLen := s.keyLen, msgLen := s.msgLen, c := s.c, d := s.d, key := s.key, msg := s.msg, draws := s.draws }

/-- The state after an accepted command has been latched, with `rest` to come (R184). -/
def State.started (s : State) (op : Op) (rest : List Event) : State :=
  { s.clearOutcome with cr := s.countC op, dr := s.countD op, phase := Phase.init, port := rest, rdata := none }

/-- The state after INIT has run on it (R140). -/
def State.initialised (s : State) : State :=
  { (s.advanceDraws 16).setWords (initWords
      (leWord (fun i => s.key.readByte i (s.draws + i)) 8)
      (leWord (fun i => s.key.readByte (8 + i) (s.draws + 8 + i)) 8)) with
    m := 0#64, off := 0#64, rc := 0#64, last := false, phase := s.nextLoad 0#64 }

/-- A command word written to CMD decodes to its command (R35, R93). -/
theorem decodeReq_command (op : Op) : decodeReq (packReq Kind.csrw 0#64 op.word) = .ok op.instr := by
  cases op <;> rfl

/-- In IDLE a command is accepted (R184). -/
theorem exec_command_idle {s : State} (hidle : s.phase = Phase.idle) (op : Op) :
    exec op.instr s = .next (s.accept op) := by
  have hbusy := State.busy_eq_false.mpr hidle
  cases op with
  | hash => exact execHash_idle hbusy
  | hash24 => exact execHash24_idle hbusy

/-- The accepting step of a command that passes validation. -/
theorem step_command {s : State} {op : Op} {rest : List Event} (hidle : s.phase = Phase.idle) (hkey : s.keyLen = 16#64)
    (hc : s.countC op ≠ 0#64) (hd : s.countD op ≠ 0#64)
    (hport : s.port = .request (packReq Kind.csrw 0#64 op.word) :: rest) : step s = .next (s.started op rest) := by
  rw [step_decoded_request hport (decodeReq_command op), exec_command_idle (s := s.takeRequest rest) hidle]
  rcases State.accept_cases (s.takeRequest rest) op with ⟨hk, _⟩ | ⟨_, h, _⟩ | ⟨_, _, _, e⟩
  · exact absurd hkey hk
  · exact absurd h (not_or.mpr ⟨by cases op <;> exact hc, by cases op <;> exact hd⟩)
  · rw [e]
    cases op <;> rfl

/-- The engine's turn in INIT. -/
theorem step_init {s : State} {rest : List Event} (hinit : s.phase = Phase.init) (hport : s.port = .engine :: rest) :
    step s = .next (s.setPort rest).initialised := by
  rw [step_engine hport, engineTurn_ok (i := .init) (by rw [State.setPort_phase, hinit]; rfl)]
  exact execInit_eq _

/-- A command that passes validation, and INIT. -/
theorem run_command_init {s : State} {op : Op} {rest : List Event} (hidle : s.phase = Phase.idle)
    (hkey : s.keyLen = 16#64) (hc : s.countC op ≠ 0#64) (hd : s.countD op ≠ 0#64)
    (hport : s.port = .request (packReq Kind.csrw 0#64 op.word) :: .engine :: rest) :
    run 2 s = .next ((s.started op (.engine :: rest)).setPort rest).initialised :=
  run_step (step_command hidle hkey hc hd hport) (run_step (step_init rfl rfl) rfl)

/-- The started and initialised state is a function of the inputs: every other register has been overwritten. -/
theorem initialised_inputsOnly (s : State) (op : Op) (pending rest : List Event) :
    ((s.inputsOnly.started op pending).setPort rest).initialised =
      ((s.started op pending).setPort rest).initialised := by
  cases op <;> rfl

/-- Settles O49: both runs lead to the initialised state of their inputs, and these are the same. -/
theorem nothingCarriesOverBetweenRuns : Obligations.NothingCarriesOverBetweenRuns := by
  intro s t op rest hs ht hkey hc hd hport hports hkeyLen hmsgLen hC hD hkeyBytes hmsgBytes hcap hdraws
  have hinputs : t.inputsOnly = s.inputsOnly := by
    simp only [State.inputsOnly, hkeyLen, hmsgLen, hC, hD, hkeyBytes, hmsgBytes, hcap, hdraws]
  have hcounts : t.countC op = s.countC op ∧ t.countD op = s.countD op := by
    cases op
    · exact ⟨hC, hD⟩
    · exact ⟨rfl, rfl⟩
  refine ⟨_, run_command_init hs hkey hc hd hport, ?_⟩
  rw [run_command_init ht (hkeyLen.trans hkey) (hcounts.1 ▸ hc) (hcounts.2 ▸ hd) (hports.trans hport),
    ← initialised_inputsOnly t, hinputs, initialised_inputsOnly]

end Sys2Proof.Machine
end

section
/-! The engine's turn (spec/10_state.md R27) and the machine right after reset (R49). -/

namespace Sys2Proof.Machine

open Sys2Proof

/-- Settles O6: with no event pending, and with its turn scheduled first, the engine's turn is the selected meaning. -/
theorem stepRunsTheMicroOperationOfPhase : Obligations.StepRunsTheMicroOperationOfPhase := by
  intro s i hdecode
  exact ⟨fun hport => step_uop hport hdecode,
    fun rest hport => (step_engine hport).trans (engineTurn_ok (s := s.setPort rest) hdecode)⟩

/-- Settles O9: both ways to the engine's turn, in IDLE and in a reserved phase. -/
theorem engineHasNoStepInIdleOrReservedPhases : Obligations.EngineHasNoStepInIdleOrReservedPhases := by
  intro s
  refine ⟨fun hidle hport => ?_, fun rest hidle hport => ?_, fun hres hport => ?_, fun rest hres hport => ?_⟩
  · exact (step_nil hport).trans (engineTurn_idle hidle)
  · exact (step_engine hport).trans (engineTurn_idle (s := s.setPort rest) hidle)
  · exact (step_nil hport).trans (engineTurn_reserved hres)
  · exact (step_engine hport).trans (engineTurn_reserved (s := s.setPort rest) hres)

/-- Where KEY_LEN is not 16, acceptance takes InvalidKeyLength with the outcome cleared (R184, R211). -/
theorem State.accept_keyLen {s : State} (hkey : s.keyLen ≠ 16#64) (op : Op) :
    s.accept op = s.clearOutcome.errorEntry .invalidKeyLength := if_pos hkey

/-- Settles O11: the values are those of `resetWith`; the engine waits in IDLE, and KEY_LEN = 0 fails validation. -/
theorem resetLeavesTheListedValues : Obligations.ResetLeavesTheListedValues := by
  rintro cap s rfl
  have hkey : (State.resetWith cap).keyLen ≠ 16#64 := by
    show (0#64 : Word) ≠ 16#64
    decide
  refine ⟨rfl, rfl, rfl, rfl, rfl, rfl, rfl, rfl, rfl, rfl, rfl, rfl, rfl, rfl, rfl, rfl, rfl, rfl, rfl,
    fun _ => rfl, fun _ => rfl, ?_, ?_, ?_⟩
  · exact (step_nil rfl).trans (engineTurn_idle rfl)
  · exact (execHash_idle rfl).trans (by rw [State.accept_keyLen hkey]; rfl)
  · exact (execHash24_idle rfl).trans (by rw [State.accept_keyLen hkey]; rfl)

end Sys2Proof.Machine
end

section
/-! The buffers along a step (spec/20_memory.md R60, R66): a byte write inside the space, reset, or nothing touches them. -/

namespace Sys2Proof.Machine

open Sys2Proof

/-- Two states with the same buffers and the same capacity. -/
structure SameBuffers (s t : State) : Prop where
  key : t.key = s.key
  msg : t.msg = s.msg
  msgCap : t.msgCap = s.msgCap

/-! ### What each operation does to the buffers -/

theorem State.accept_sameBuffers (s : State) (op : Op) : SameBuffers s (s.accept op) := by
  rcases State.accept_cases s op with ⟨_, e⟩ | ⟨_, _, e⟩ | ⟨_, _, _, e⟩ <;> rw [e] <;> exact ⟨rfl, rfl, rfl⟩

theorem State.configWrite_sameBuffers (s : State) (addr wdata : Word) : SameBuffers s (s.configWrite addr wdata) := by
  rw [State.configWrite_keeps s addr wdata _ rfl]
  exact ⟨rfl, rfl, rfl⟩

theorem exec_uop_sameBuffers {s t : State} {i : Instr} (hd : decodeUop s.phase = .ok i) (he : exec i s = .next t) :
    SameBuffers s t := by
  rw [exec_uop_keeps hd he]
  exact ⟨rfl, rfl, rfl⟩

@[simp] theorem State.memWrite_msgCap (s : State) (sp : Space) (addr wdata : Word) :
    (s.memWrite sp addr wdata).msgCap = s.msgCap := by
  rw [State.memWrite_keeps s sp addr wdata _ rfl]

/-- A request that is no byte write leaves the buffers alone. -/
theorem serveRequest_buffers {w : ReqWord} {s t : State} (h : serveRequest w s = .next t) :
    SameBuffers s t ∨ ∃ sp addr wdata, t = s.memWrite sp addr wdata := by
  rcases serveRequest_effects h with ⟨v, rfl⟩ | rfl | ⟨_, _, rfl⟩ | ⟨_, _, rfl⟩ | ⟨_, addr, wdata, rfl⟩ | ⟨_, hwrite⟩
  · exact .inl ⟨rfl, rfl, rfl⟩
  · exact .inl ⟨rfl, rfl, rfl⟩
  · exact .inl (s.accept_sameBuffers .hash)
  · exact .inl (s.accept_sameBuffers .hash24)
  · exact .inl (s.configWrite_sameBuffers addr wdata)
  · exact .inr hwrite

/-- Everything a step can do to the buffers: nothing, one byte write of a request, or reset. -/
theorem step_buffers {s t : State} (h : step s = .next t) :
    SameBuffers s t ∨
    (∃ rest sp addr wdata, t = (s.takeRequest rest).memWrite sp addr wdata) ∨
    (∃ rest, t = (s.setPort rest).resetEvent) := by
  rcases step_cases h with ⟨u, _, rfl, rfl, _⟩ | ⟨u, i, rfl, hd, he, _⟩ | ⟨w, rest, _, he⟩ | ⟨rest, _, ht⟩
  · exact .inl ⟨rfl, rfl, rfl⟩
  · obtain ⟨hkey, hmsg, hcap⟩ := exec_uop_sameBuffers hd he
    exact .inl ⟨hkey, hmsg, hcap⟩
  · rcases serveRequest_buffers he with ⟨hkey, hmsg, hcap⟩ | hwrite
    · exact .inl ⟨hkey, hmsg, hcap⟩
    · exact .inr (.inl ⟨rest, hwrite⟩)
  · exact .inr (.inr ⟨rest, ht⟩)

/-! ### The canonical form and the bounds -/

/-- The canonical form and the bounds read the buffers and the capacity alone. -/
theorem BuffersWf.of_sameBuffers {s t : State} (h : BuffersWf s) (e : SameBuffers s t) : BuffersWf t where
  keyRising := e.key ▸ h.keyRising
  msgRising := e.msg ▸ h.msgRising
  keyInside := e.key ▸ h.keyInside
  msgInside := by rw [e.msg, e.msgCap]; exact h.msgInside

/-- No byte is listed after reset. -/
theorem buffersWf_resetWith (cap : Word) : BuffersWf (State.resetWith cap) := ⟨rfl, rfl, rfl, rfl⟩

/-- A byte write is dropped, or lies below the capacity of its space, where it keeps the form and the bound (R66). -/
theorem BuffersWf.memWrite {s : State} (h : BuffersWf s) (sp : Space) (addr wdata : Word) :
    BuffersWf (s.memWrite sp addr wdata) := by
  rcases State.memWrite_cases s sp addr wdata with ⟨e, _⟩ | ⟨_, hinside, e⟩ <;> rw [e]
  · exact h
  · cases sp with
    | key =>
      exact { h with
        keyRising := Buffer.wf_write h.keyRising _ _
        keyInside := Buffer.below_write h.keyInside hinside _ }
    | msg =>
      exact { h with
        msgRising := Buffer.wf_write h.msgRising _ _
        msgInside := Buffer.below_write h.msgInside hinside _ }

/-- Settles O47: a step leaves the buffers alone, writes one byte inside its space, or empties them by reset. -/
theorem buffersStayCanonicalAndInside : Obligations.BuffersStayCanonicalAndInside := by
  refine ⟨buffersWf_resetWith, fun s t hwf hstep => ?_⟩
  rcases step_buffers hstep with hsame | ⟨rest, sp, addr, wdata, rfl⟩ | ⟨rest, rfl⟩
  · exact ⟨hwf.of_sameBuffers hsame, hsame.msgCap⟩
  · have htaken : BuffersWf (s.takeRequest rest) := hwf.of_sameBuffers ⟨rfl, rfl, rfl⟩
    exact ⟨htaken.memWrite sp addr wdata, State.memWrite_msgCap _ sp addr wdata⟩
  · exact ⟨(buffersWf_resetWith s.msgCap).of_sameBuffers ⟨rfl, rfl, rfl⟩, rfl⟩

end Sys2Proof.Machine
end

section
/-! The three decoders against the encoder (spec/30_encoding.md R90 to R108): each reads back what the other writes, and
what is reserved is named. -/

namespace Sys2Proof.Machine

open Sys2Proof

/-! ### Decoding an encoding -/

/-- Settles O1: the round trip of each of the fifteen constructors. -/
theorem decodingReadsBackEveryEncoding : Obligations.DecodingReadsBackEveryEncoding := by
  intro i
  cases i with
  | csrr addr => exact Laws.RoundTrip.csrr addr
  | csrw addr wdata => exact Laws.RoundTrip.csrw addr wdata
  | keyw addr wdata => exact Laws.RoundTrip.keyw addr wdata
  | msgw addr wdata => exact Laws.RoundTrip.msgw addr wdata
  | hash => exact Laws.RoundTrip.hash
  | hash24 => exact Laws.RoundTrip.hash24
  | init => exact Laws.RoundTrip.init
  | ldblk => exact Laws.RoundTrip.ldblk
  | ldtail => exact Laws.RoundTrip.ldtail
  | xin => exact Laws.RoundTrip.xin
  | crnd => exact Laws.RoundTrip.crnd
  | xout => exact Laws.RoundTrip.xout
  | xff => exact Laws.RoundTrip.xff
  | frnd => exact Laws.RoundTrip.frnd
  | fold => exact Laws.RoundTrip.fold

/-- A code that is the encoding of a well-formed instruction decodes to it. -/
theorem decode_of_encode {i : Instr} {code : Code} (hwf : i.wellFormed = true) (h : encode i = code) :
    decode code = .ok i :=
  h ▸ decodingReadsBackEveryEncoding i hwf

/-- Settles O3: each word is the encoding of its instruction. -/
theorem specWordsDecodeToTheirInstructions : Obligations.SpecWordsDecodeToTheirInstructions :=
  ⟨decode_of_encode rfl rfl, decode_of_encode rfl rfl, decode_of_encode rfl rfl, decode_of_encode rfl rfl,
    decode_of_encode rfl rfl, decode_of_encode rfl rfl, decode_of_encode rfl rfl, decode_of_encode rfl rfl,
    decode_of_encode rfl rfl, decode_of_encode rfl rfl, decode_of_encode rfl rfl, decode_of_encode rfl rfl,
    decode_of_encode rfl rfl, decode_of_encode rfl rfl, decode_of_encode rfl rfl⟩

/-! ### Encoding what was decoded -/

/-- The second look-up of R105 leaves no CSRW of a command word (assumption 8), and its encoding is the CSRW read. -/
theorem decodeCsrw_readsBack (addr wdata : Word) :
    (decodeCsrw addr wdata).wellFormed = true ∧
    encode (decodeCsrw addr wdata) = .req (packReq Kind.csrw addr wdata) := by
  rcases decodeCsrw_cases addr wdata with ⟨ha, hw, e⟩ | ⟨ha, hw, e⟩ | ⟨hplain, e⟩ <;> rw [e]
  · exact ⟨rfl, by rw [ha, hw]; rfl⟩
  · exact ⟨rfl, by rw [ha, hw]; rfl⟩
  · exact ⟨by simpa [Instr.wellFormed, Op.word, imp_iff_not_or] using hplain, rfl⟩

/-- A word of a given kind is packed from that kind and its operands (R90). -/
theorem packReq_of_kind {w : ReqWord} {k : BitVec 3} (h : reqKind w = k) : packReq k (reqAddr w) (reqData w) = w :=
  h ▸ packReq_fields w

/-- What the request decoder accepts encodes back to the word read, but for the data that a read ignores (R92). -/
theorem decodeReq_readsBack {w : ReqWord} {i : Instr} (h : decodeReq w = .ok i) :
    i.wellFormed = true ∧
    (encode i = .req w ∨ i = .csrr (reqAddr w) ∧ w = packReq Kind.csrr (reqAddr w) (reqData w)) := by
  rcases decodeReq_cases w with ⟨hk, e⟩ | ⟨hk, e⟩ | ⟨hk, e⟩ | ⟨hk, e⟩ | ⟨_, e⟩ | ⟨_, e⟩ | ⟨_, e⟩ | ⟨_, e⟩ <;>
    rw [e] at h <;> cases h
  · exact ⟨rfl, .inr ⟨rfl, (packReq_of_kind hk).symm⟩⟩
  · obtain ⟨hwf, hencode⟩ := decodeCsrw_readsBack (reqAddr w) (reqData w)
    exact ⟨hwf, .inl (hencode.trans (congrArg _ (packReq_of_kind hk)))⟩
  · exact ⟨rfl, .inl (congrArg _ (packReq_of_kind hk))⟩
  · exact ⟨rfl, .inl (congrArg _ (packReq_of_kind hk))⟩

/-- What the phase decoder accepts encodes back to the phase code (R27). -/
theorem decodeUop_readsBack {p : PhaseCode} {i : Instr} (h : decodeUop p = .ok i) :
    i.wellFormed = true ∧ encode i = .uop p := by
  rcases decodeUop_cases p with ⟨_, e⟩ | ⟨hp, e⟩ | ⟨hp, e⟩ | ⟨hp, e⟩ | ⟨hp, e⟩ | ⟨hp, e⟩ | ⟨hp, e⟩ | ⟨hp, e⟩ | ⟨hp, e⟩ |
    ⟨hp, e⟩ | ⟨_, e⟩ <;> rw [e] at h <;> cases h <;> exact ⟨rfl, hp ▸ rfl⟩

/-- Settles O2: by the decoder that read the code. -/
theorem encodingReadsBackEveryDecodedCode : Obligations.EncodingReadsBackEveryDecodedCode := by
  intro code i h
  cases code with
  | req w =>
    obtain ⟨hwf, hencode | ⟨hi, hw⟩⟩ := decodeReq_readsBack h
    · exact ⟨hwf, .inl hencode⟩
    · exact ⟨hwf, .inr ⟨_, _, hi, congrArg _ hw⟩⟩
  | uop p =>
    obtain ⟨hwf, hencode⟩ := decodeUop_readsBack h
    exact ⟨hwf, .inl hencode⟩

/-! ### The reserved codes -/

/-- The four kinds of R91 are accepted, and no other. -/
theorem decodeReq_accepts_iff (w : ReqWord) : (∃ i, decodeReq w = .ok i) ↔
    reqKind w = Kind.csrr ∨ reqKind w = Kind.csrw ∨ reqKind w = Kind.keyw ∨ reqKind w = Kind.msgw := by
  rcases decodeReq_cases w with ⟨hk, e⟩ | ⟨hk, e⟩ | ⟨hk, e⟩ | ⟨hk, e⟩ | ⟨hk, e⟩ | ⟨hk, e⟩ | ⟨hk, e⟩ | ⟨hk, e⟩ <;>
    rw [e, hk]
  · exact iff_of_true ⟨_, rfl⟩ (.inl rfl)
  · exact iff_of_true ⟨_, rfl⟩ (.inr (.inl rfl))
  · exact iff_of_true ⟨_, rfl⟩ (.inr (.inr (.inl rfl)))
  · exact iff_of_true ⟨_, rfl⟩ (.inr (.inr (.inr rfl)))
  · exact iff_of_false (by simp) (by decide)
  · exact iff_of_false (by simp) (by decide)
  · exact iff_of_false (by simp) (by decide)
  · exact iff_of_false (by simp) (by decide)

/-- Every command word but 1 and 2 is reserved (R106). -/
theorem decodeCmd_reserved_iff (w : Word) :
    decodeCmd w = .error .reservedCommand ↔ w ≠ Op.hash.word ∧ w ≠ Op.hash24.word := by
  rcases decodeCmd_cases w with ⟨h, e⟩ | ⟨h, e⟩ | ⟨h1, h2, e⟩ <;> rw [e]
  · simp [h]
  · simp [h]
  · simp [h1, h2]

/-- The phase codes 10 to 15 are reserved, and no other (R108). -/
theorem decodeUop_reserved_iff (p : PhaseCode) : decodeUop p = .error .reservedPhase ↔ 10 ≤ p.toNat := by
  rcases decodeUop_cases p with ⟨hp, e⟩ | ⟨hp, e⟩ | ⟨hp, e⟩ | ⟨hp, e⟩ | ⟨hp, e⟩ | ⟨hp, e⟩ | ⟨hp, e⟩ | ⟨hp, e⟩ | ⟨hp, e⟩ |
    ⟨hp, e⟩ | ⟨hp, e⟩ <;>
    rw [e] <;> simp [hp, phase_codes]

/-- Settles O4: the four reserved kinds, then what each of the three decoders accepts. -/
theorem reservedCodesAreRejectedByName : Obligations.ReservedCodesAreRejectedByName :=
  ⟨decodeReq_keyRead, decodeReq_msgRead, decodeReq_spaceRead, decodeReq_spaceWrite, decodeReq_accepts_iff,
    decodeCmd_reserved_iff, rfl, decodeUop_reserved_iff⟩

end Sys2Proof.Machine
end

section
/-! What a placed code and a reserved request do in the step that takes them (spec/30_encoding.md R93, R107). -/

namespace Sys2Proof.Machine

open Sys2Proof

/-! ### Placed instructions (assumption 7) -/

theorem decodeTableWord_eq_some {nbits w : Nat} {i : Instr} (h : decodeTableWord nbits w = some i) :
    ∃ code, tableCode nbits w = some code ∧ decode code = .ok i := by
  unfold decodeTableWord at h
  split at h
  · cases h
  · split at h
    · cases h
      exact ⟨_, ‹_›, ‹_›⟩
    · cases h

/-- Everything a table word can stand for: a phase code, nothing where its byte holds more than one, or a request. -/
theorem tableCode_cases (nbits w : Nat) :
    (nbits ≤ 8 ∧ w < 16 ∧ tableCode nbits w = some (.uop (BitVec.ofNat 4 w))) ∨
    (nbits ≤ 8 ∧ tableCode nbits w = none) ∨
    (8 < nbits ∧ ∃ r, tableCode nbits w = some (.req r)) := by
  unfold tableCode
  split_ifs with hbyte hphase hword
  · exact .inl ⟨hbyte, hphase, rfl⟩
  · exact .inr (.inl ⟨hbyte, rfl⟩)
  · exact .inr (.inr ⟨Nat.lt_of_not_le hbyte, _, rfl⟩)
  · exact .inr (.inr ⟨Nat.lt_of_not_le hbyte, _, rfl⟩)

/-- A placed phase code is what the engine's turn executes. -/
theorem step_withCode_uop {p : PhaseCode} {i : Instr} (h : decodeUop p = .ok i) (s : State) :
    step (s.withCode (.uop p)) = exec i { s with phase := p } :=
  (step_engine rfl).trans (engineTurn_ok h)

/-- A placed request is what the port serves. -/
theorem step_withCode_req {r : ReqWord} {i : Instr} (h : decodeReq r = .ok i) (s : State) :
    step (s.withCode (.req r)) = exec i { s with rdata := none } :=
  step_decoded_request rfl h

/-- Settles O7: a row of at most one byte places a phase code, a wider one a request. -/
theorem placedTableWordIsWhatTheNextStepRuns : Obligations.PlacedTableWordIsWhatTheNextStepRuns := by
  intro s nbits w i h
  obtain ⟨code, hcode, hdecode⟩ := decodeTableWord_eq_some h
  have hplaced : s.withFetchWord nbits w = s.withCode code := by simp [State.withFetchWord, hcode]
  rw [hplaced]
  rcases tableCode_cases nbits w with ⟨hbyte, hphase, e⟩ | ⟨_, e⟩ | ⟨hwide, r, e⟩ <;> rw [e] at hcode <;> cases hcode
  · exact ⟨_, step_withCode_uop hdecode s, rfl, fun _ => ⟨Nat.mod_eq_of_lt hphase, rfl⟩,
      fun hwide => absurd hbyte (Nat.not_le.mpr hwide)⟩
  · exact ⟨_, step_withCode_req hdecode s, rfl, fun hbyte => absurd hbyte (Nat.not_le.mpr hwide),
      fun _ => ⟨rfl, rfl⟩⟩

/-! ### Reserved requests (R107) -/

/-- The rule of a reserved request: taken off the port, it has the effect of its rejection. -/
theorem step_rejected_request {s : State} {w : ReqWord} {rest : List Event} {r : Rejection}
    (hport : s.port = .request w :: rest) (hdecode : decodeReq w = .error r) :
    step s = .next ((s.takeRequest rest).reservedRequest r) := by
  rw [step_request hport, serveRequest_error hdecode]

/-- CMD and every unmapped number read 0 (R44). -/
theorem State.csrRead_reserved (s : State) {addr : Word} (h : addr = Csr.cmd ∨ 8 < addr.toNat) : s.csrRead addr = 0#64 := by
  rcases h with rfl | h
  · rfl
  · have hne {n : Word} (hn : ¬ 8 < n.toNat) : addr ≠ n := fun e => hn (e ▸ h)
    simp [State.csrRead, hne]

/-- In every phase a write to a number that is neither CMD nor a configuration CSR is dropped (R191). -/
theorem execCsrw_dropped {addr : Word} (hcmd : addr ≠ Csr.cmd) (hkeyLen : addr ≠ Csr.keyLen) (hmsgLen : addr ≠ Csr.msgLen)
    (hc : addr ≠ Csr.c) (hd : addr ≠ Csr.d) (wdata : Word) (s : State) : execCsrw addr wdata s = .next s := by
  cases hbusy : s.busy
  · simp [execCsrw, State.configWrite, hbusy, hcmd, hkeyLen, hmsgLen, hc, hd]
  · exact execCsrw_busy hbusy addr wdata

/-- Settles O8: the reserved kinds by name, then the reserved CSR numbers. -/
theorem reservedRequestsAnswerZeroOrAreDropped : Obligations.ReservedRequestsAnswerZeroOrAreDropped := by
  refine ⟨fun s kind addr wdata rest hport => ⟨?_, ?_⟩, fun s addr h => ?_, fun s addr wdata h => ?_⟩
  · rintro (rfl | rfl | rfl)
    · exact step_rejected_request hport (decodeReq_keyRead addr wdata)
    · exact step_rejected_request hport (decodeReq_msgRead addr wdata)
    · exact step_rejected_request hport (decodeReq_spaceRead addr wdata)
  · rintro rfl
    exact step_rejected_request hport (decodeReq_spaceWrite addr wdata)
  · exact congrArg (fun v => Host.Outcome.next (s.respond v)) (s.csrRead_reserved h)
  · show execCsrw addr wdata s = .next s
    have hne {n : Word} (hn : ¬ (n = 1#64 ∨ n = 2#64 ∨ n = 7#64 ∨ n = 8#64 ∨ 8 < n.toNat)) : addr ≠ n :=
      fun e => hn (e ▸ h)
    exact execCsrw_dropped (hne (by decide)) (hne (by decide)) (hne (by decide)) (hne (by decide)) (hne (by decide)) wdata s

end Sys2Proof.Machine
end

section
/-! The Word Codec (spec/40_word_codec.md): rotation bit by bit, the little-endian read as a sum, MemRead, and the length
tag beside the tail. -/

namespace Sys2Proof.Machine

open Sys2Proof

/-! ### Rotation (R127) -/

theorem getLsbD_rotl64 (a : Word) {n i : Nat} (hpos : 1 ≤ n) (hn : n ≤ 63) (hi : i < 64) :
    (rotl64 a n).getLsbD i = a.getLsbD ((i + 64 - n) % 64) := by
  rw [rotl64, BitVec.getLsbD_or, BitVec.getLsbD_shiftLeft, BitVec.getLsbD_ushiftRight]
  rcases Nat.lt_or_ge i n with h | h
  · have hre : (i + 64 - n) % 64 = 64 - n + i := by omega
    simp [h, hre]
  · have hmove : (i + 64 - n) % 64 = i - n := by omega
    have hout : 64 ≤ 64 - n + i := by omega
    simp [hi, Nat.not_lt.mpr h, hmove, BitVec.getLsbD_of_ge a _ hout]

theorem rotl64_half (a : Word) : rotl64 a 32 = a.extractLsb' 0 32 ++ a.extractLsb' 32 32 := by
  refine BitVec.eq_of_getLsbD_eq fun i hi => ?_
  rw [getLsbD_rotl64 a (by decide) (by decide) hi, BitVec.getLsbD_append, BitVec.getLsbD_extractLsb',
    BitVec.getLsbD_extractLsb']
  rcases Nat.lt_or_ge i 32 with h | h
  · have hlow : (i + 64 - 32) % 64 = 32 + i := by omega
    rw [hlow, if_pos h]
    simp [h]
  · have hhigh : (i + 64 - 32) % 64 = 0 + (i - 32) := by omega
    have hlt : i - 32 < 32 := by omega
    rw [hhigh, if_neg (Nat.not_lt.mpr h)]
    simp [hlt]

/-- Settles O13: where each bit of the two shifts comes from. -/
theorem rotationMovesEveryBitByItsAmount : Obligations.RotationMovesEveryBitByItsAmount :=
  ⟨fun a _ _ hpos hn hi => getLsbD_rotl64 a hpos hn hi, rotl64_half⟩

/-! ### The little-endian read (R120) -/

theorem getLsbD_leWord_of_ge (f : Nat → Byte) {n j : Nat} (hn : n ≤ 8) (hj : 8 * n ≤ j) :
    (leWord f n).getLsbD j = false := by
  simp [getLsbD_leWord f n j hn, Nat.not_lt.mpr hj]

theorem toNat_leWord_lt (f : Nat → Byte) {n : Nat} (hn : n ≤ 8) : (leWord f n).toNat < 2 ^ (8 * n) :=
  Nat.lt_pow_two_of_testBit _ fun _ hj => getLsbD_leWord_of_ge f hn hj

/-- A byte at one of the eight places of a word loses no bit. -/
theorem toNat_zextByte_shiftLeft (v : Byte) {n : Nat} (hn : n < 8) :
    (zextByte v <<< (8 * n)).toNat = 2 ^ (8 * n) * v.toNat := by
  have hplace : v.toNat * 2 ^ (8 * n) < 2 ^ 64 := calc
    v.toNat * 2 ^ (8 * n) < 2 ^ 8 * 2 ^ (8 * n) := Nat.mul_lt_mul_of_pos_right v.isLt (Nat.two_pow_pos _)
    _ = 2 ^ (8 + 8 * n) := (Nat.pow_add ..).symm
    _ ≤ 2 ^ 64 := Nat.pow_le_pow_right (by decide) (by omega)
  rw [BitVec.toNat_shiftLeft, zextByte, BitVec.toNat_setWidth_of_le (by decide), Nat.shiftLeft_eq,
    Nat.mod_eq_of_lt hplace, Nat.mul_comm]

/-- The bytes stand at disjoint places, so that or-ing them adds them. -/
theorem toNat_leWord (f : Nat → Byte) {n : Nat} (hn : n ≤ 8) :
    (leWord f n).toNat = ∑ i ∈ Finset.range n, (f i).toNat * 2 ^ (8 * i) := by
  induction n with
  | zero => rfl
  | succ n ih =>
    have hlow : (leWord f n).toNat < 2 ^ (8 * n) := toNat_leWord_lt f (by omega)
    rw [leWord, BitVec.toNat_or, toNat_zextByte_shiftLeft _ hn, Nat.or_comm, ← Nat.two_pow_add_eq_or_of_lt hlow,
      ih (by omega), Finset.sum_range_succ, Nat.add_comm, Nat.mul_comm]

/-- Settles O16: the sum, and no bit above the bytes read. -/
theorem littleEndianReadIsTheSumOfItsBytes : Obligations.LittleEndianReadIsTheSumOfItsBytes :=
  fun _ _ _ hn => ⟨toNat_leWord _ hn, fun _ hj => getLsbD_leWord_of_ge _ hn hj, rfl⟩

/-! ### MemRead (R121) -/

/-- The byte space as a read at `a` sees it: a written byte, or else the draw of its place in the read (assumption 2). -/
def State.bytesReadAt (s : State) (sp : Space) (a : Nat) : Nat → Byte :=
  fun x => (s.buffer sp).readByte x (s.draws + (x - a))

theorem State.memRead_ok_readU64le {s : State} {sp : Space} {a n : Nat} (h : a + n ≤ s.capacity sp) :
    s.memRead sp a n = .ok (readU64le (s.bytesReadAt sp a) a n, s.advanceDraws n) := by
  rw [State.memRead_ok h]
  simp [readU64le, State.bytesReadAt]

/-- Settles O17: past the capacity the raise, inside it the bytes as the read sees them. -/
theorem memReadRaisesPastCapacityElseReads : Obligations.MemReadRaisesPastCapacityElseReads :=
  fun s sp a _ _ => ⟨State.memRead_error, fun hin => ⟨s.bytesReadAt sp a, _, State.memRead_ok_readU64le hin,
    fun _ _ _ hwritten => Buffer.readByte_of_some hwritten _⟩⟩

/-! ### The length tag and the tail (R128) -/

/-- The tag stands in byte 7 alone. -/
theorem getLsbD_lengthTag_of_lt (len : Word) {j : Nat} (hj : j < 56) : (lengthTag len).getLsbD j = false := by
  simp [lengthTag, hj]

theorem lengthTag_and_readU64le (len : Word) (b : Nat → Byte) (o : Nat) {n : Nat} (hn : n ≤ 7) :
    lengthTag len &&& readU64le b o n = 0#64 := by
  refine BitVec.eq_of_getLsbD_eq fun j _ => ?_
  rw [BitVec.getLsbD_and, BitVec.getLsbD_zero]
  rcases Nat.lt_or_ge j 56 with h | h
  · rw [getLsbD_lengthTag_of_lt len h, Bool.false_and]
  · rw [readU64le, getLsbD_leWord_of_ge _ (by omega) (by omega), Bool.and_false]

/-- Words with no common bit: at each bit `or` and `xor` differ only where both are set. -/
theorem or_eq_xor_of_and_eq_zero {x y : Word} (h : x &&& y = 0#64) : x ||| y = x ^^^ y := by
  refine BitVec.eq_of_getLsbD_eq fun j _ => ?_
  have hbit : (x.getLsbD j && y.getLsbD j) = false := by rw [← BitVec.getLsbD_and, h, BitVec.getLsbD_zero]
  rw [BitVec.getLsbD_or, BitVec.getLsbD_xor]
  rcases Bool.and_eq_false_iff.mp hbit with hx | hy
  · simp [hx]
  · simp [hy]

/-- Settles O18: a word of at most seven bytes has no bit in byte 7, where the tag stands. -/
theorem lengthTagAndTailAreDisjoint : Obligations.LengthTagAndTailAreDisjoint := by
  intro len b o n hn
  have hdisjoint := lengthTag_and_readU64le len b o hn
  exact ⟨hdisjoint, or_eq_xor_of_and_eq_zero hdisjoint, (BitVec.add_eq_or_of_and_eq_zero _ _ hdisjoint).symm⟩

end Sys2Proof.Machine
end

section
/-! The Mixing Round (spec/41_mixing_round.md): SipRound as four add-rotate-xor mixes of a pair of words, each undone on
its own, and the two micro-operations that apply it. -/

namespace Sys2Proof.Machine

open Sys2Proof

/-! ### The function (R130, R131, R135) -/

/-- Settles O14: with the names substituted, the assignments in reading order are the single-assignment form. -/
theorem sipRoundHasItsSingleAssignmentForm : Obligations.SipRoundHasItsSingleAssignmentForm := by
  rintro v0 v1 v2 v3 _ _ _ _ _ _ _ _ _ _ rfl rfl rfl rfl rfl rfl rfl rfl rfl rfl
  rfl

/-- Rotating on by the rest of the word brings every bit back to its place. -/
theorem rotl64_rotl64_sub (a : Word) {n : Nat} (hpos : 1 ≤ n) (hn : n ≤ 63) : rotl64 (rotl64 a n) (64 - n) = a := by
  refine BitVec.eq_of_getLsbD_eq fun i hi => ?_
  have hplace : ((i + 64 - (64 - n)) % 64 + 64 - n) % 64 = i := by omega
  rw [getLsbD_rotl64 _ (by omega) (by omega) hi, getLsbD_rotl64 _ hpos hn (Nat.mod_lt _ (by decide)), hplace]

theorem rotl64_sub_rotl64 (a : Word) {n : Nat} (hpos : 1 ≤ n) (hn : n ≤ 63) : rotl64 (rotl64 a (64 - n)) n = a := by
  have h := rotl64_rotl64_sub a (n := 64 - n) (by omega) (by omega)
  rwa [Nat.sub_sub_self (by omega)] at h

@[simp] theorem rotl64_half_rotl64_half (a : Word) : rotl64 (rotl64 a 32) 32 = a :=
  rotl64_rotl64_sub a (n := 32) (by decide) (by decide)

/-- What each line of R130 does to its two words, but for the half swaps: add, rotate by `n`, xor. -/
def mix (n : Nat) (p : Word × Word) : Word × Word := (p.1 + p.2, rotl64 p.2 n ^^^ (p.1 + p.2))

/-- The three assignments of `mix` undone, the last one first (R135). -/
def unmix (n : Nat) (p : Word × Word) : Word × Word :=
  (p.1 - rotl64 (p.2 ^^^ p.1) (64 - n), rotl64 (p.2 ^^^ p.1) (64 - n))

theorem unmix_mix {n : Nat} (hpos : 1 ≤ n) (hn : n ≤ 63) (p : Word × Word) : unmix n (mix n p) = p := by
  simp [unmix, mix, rotl64_rotl64_sub p.2 hpos hn]

theorem mix_unmix {n : Nat} (hpos : 1 ≤ n) (hn : n ≤ 63) (p : Word × Word) : mix n (unmix n p) = p := by
  simp [unmix, mix, rotl64_sub_rotl64 (p.2 ^^^ p.1) hpos hn]

/-- The words between the two halves of R130, after its lines 1 and 2. -/
def sipRoundFirst (w : Words) : Words :=
  let p := mix 13 (w.v0, w.v1)
  let q := mix 16 (w.v2, w.v3)
  { v0 := rotl64 p.1 32, v1 := p.2, v2 := q.1, v3 := q.2 }

/-- Lines 3 and 4 of R130. -/
def sipRoundSecond (w : Words) : Words :=
  let p := mix 17 (w.v2, w.v1)
  let q := mix 21 (w.v0, w.v3)
  { v0 := q.1, v1 := p.2, v2 := rotl64 p.1 32, v3 := q.2 }

theorem sipRound_eq_comp : sipRound = sipRoundSecond ∘ sipRoundFirst := rfl

def sipRoundFirstInv (w : Words) : Words :=
  let p := unmix 13 (rotl64 w.v0 32, w.v1)
  let q := unmix 16 (w.v2, w.v3)
  { v0 := p.1, v1 := p.2, v2 := q.1, v3 := q.2 }

def sipRoundSecondInv (w : Words) : Words :=
  let p := unmix 17 (rotl64 w.v2 32, w.v1)
  let q := unmix 21 (w.v0, w.v3)
  { v0 := q.1, v1 := p.2, v2 := p.1, v3 := q.2 }

theorem sipRoundFirst_bijective : Function.Bijective sipRoundFirst :=
  Function.bijective_iff_has_inverse.mpr ⟨sipRoundFirstInv,
    fun _ => by simp [sipRoundFirst, sipRoundFirstInv, unmix_mix],
    fun _ => by simp [sipRoundFirst, sipRoundFirstInv, mix_unmix]⟩

theorem sipRoundSecond_bijective : Function.Bijective sipRoundSecond :=
  Function.bijective_iff_has_inverse.mpr ⟨sipRoundSecondInv,
    fun _ => by simp [sipRoundSecond, sipRoundSecondInv, unmix_mix],
    fun _ => by simp [sipRoundSecond, sipRoundSecondInv, mix_unmix]⟩

/-- Settles O15: the zero words by evaluation, and the two halves of the round each run backwards. -/
theorem sipRoundIsABijection : Obligations.SipRoundIsABijection := by
  refine ⟨by decide, ?_⟩
  rw [sipRound_eq_comp]
  exact sipRoundSecond_bijective.comp sipRoundFirst_bijective

/-! ### CRND and FRND (R133, R134) -/

/-- Settles O24: CRND's meaning, with `setWords` written out as its record update. -/
theorem crndAppliesOneRound : Obligations.CrndAppliesOneRound := by
  rintro s _ rfl
  show execCrnd s = _
  rfl

/-- Settles O27: FRND's meaning, with `setWords` written out as its record update. -/
theorem frndAppliesOneRound : Obligations.FrndAppliesOneRound := by
  rintro s _ rfl
  show execFrnd s = _
  rfl

end Sys2Proof.Machine
end

section
/-! The Compressor (spec/42_compressor.md): INIT, LDBLK, XIN and XOUT as they act on the whole state, the error
that both loads take past the capacity, and the compression pass from XIN to XOUT. -/

namespace Sys2Proof.Machine

open Sys2Proof

/-! ### INIT (R140) -/

/-- Byte i of the key takes the draw of its place in the two reads together, so one byte function gives both words. -/
theorem execInit_eq_readU64le (s : State) : execInit s =
    .next { (s.advanceDraws 16).setWords (initWords (readU64le (s.bytesReadAt .key 0) 0 8)
        (readU64le (s.bytesReadAt .key 0) 8 8)) with
      m := 0#64, off := 0#64, rc := 0#64, last := false, phase := s.nextLoad 0#64 } := by
  simp [execInit_eq, readU64le, State.bytesReadAt, State.buffer, Nat.add_assoc]

/-- Settles O19: the key bytes are those the two reads see, and the successor is `next_load(0)`. -/
theorem initLoadsTheKeyAndInitialises : Obligations.InitLoadsTheKeyAndInitialises := by
  intro s
  refine ⟨s.bytesReadAt .key 0, s.draws + 16, fun _ _ _ hwritten => Buffer.readByte_of_some hwritten _, ?_⟩
  show execInit s = _
  rw [execInit_eq_readU64le, State.nextLoad_zero]
  rfl

/-! ### The loads (R142, R160) -/

theorem readU64le_bytesReadAt (s : State) (sp : Space) (a n : Nat) :
    readU64le (s.bytesReadAt sp a) a n = leWord (fun i => (s.buffer sp).readByte (a + i) (s.draws + i)) n := by
  simp [readU64le, State.bytesReadAt]

/-- Settles O20: the bytes are those the read sees. -/
theorem ldblkLoadsABlockInsideTheBuffer : Obligations.LdblkLoadsABlockInsideTheBuffer := by
  intro s hinside
  refine ⟨s.bytesReadAt .msg s.off.toNat, s.draws + 8,
    fun _ _ _ _ hwritten => Buffer.readByte_of_some hwritten _, ?_⟩
  show execLdblk s = _
  rcases execLdblk_cases s with ⟨hpast, _⟩ | ⟨_, e⟩
  · omega
  · rw [e, readU64le_bytesReadAt]
    rfl

/-- Settles O22: of everything the two loads can do, only the error entry is left past the capacity. -/
theorem loadsPastTheCapacityTakeTheError : Obligations.LoadsPastTheCapacityTakeTheError := by
  intro s
  refine ⟨fun hpast => ?_, fun _ _ hpast => ?_⟩
  · rcases execLdblk_cases s with ⟨_, e⟩ | ⟨hinside, _⟩
    · exact e
    · omega
  · rcases execLdtail_cases s with ⟨_, e⟩ | ⟨hinside, _⟩ | ⟨hinside, _⟩
    · exact e
    · omega
    · omega

/-! ### XIN and XOUT (R143, R145) -/

/-- Settles O23: XIN is its own equation. -/
theorem xinInjectsTheBlock : Obligations.XinInjectsTheBlock := by
  intro s
  show execXin s = _
  rfl

/-- After a block inside the message `OFF + 8` does not wrap, and `next_load` compares it on natural numbers (R29). -/
theorem State.nextLoad_after_block {s : State} (hfits : s.off.toNat + 8 ≤ s.msgLen.toNat) :
    s.nextLoad (s.off + 8#64) =
      if 8 ≤ s.msgLen.toNat - (s.off.toNat + 8) then Phase.ldblk else Phase.ldtail := by
  have hoff : (s.off + 8#64).toNat = s.off.toNat + 8 := by bv_omega
  rw [State.nextLoad, hoff, if_pos hfits]

/-- XOUT by the kind of its block, for a full block inside the message. -/
theorem execXout_eq {s : State} (hfits : s.last = false → s.off.toNat + 8 ≤ s.msgLen.toNat) :
    execXout s = .next { s with
      v0 := s.v0 ^^^ s.m
      off := if s.last then s.off else s.off + 8#64
      phase := if s.last then Phase.xff
        else if 8 ≤ s.msgLen.toNat - (s.off.toNat + 8) then Phase.ldblk else Phase.ldtail } := by
  rcases execXout_cases s with ⟨hlast, e⟩ | ⟨hlast, e⟩ <;> rw [e]
  · simp [hlast]
  · simp [hlast, State.nextLoad_after_block (hfits hlast)]

/-- Settles O25: the two kinds of block. -/
theorem xoutFoldsTheBlockAndAdvances : Obligations.XoutFoldsTheBlockAndAdvances := by
  intro s
  refine ⟨fun hlast hfits => ?_, fun hlast => ?_⟩
  · simpa [exec, hlast] using execXout_eq fun _ => hfits
  · simpa [exec, hlast] using execXout_eq (s := s) (by simp [hlast])

/-! ### The compression pass (R146) -/

/-- The state after XIN, the CR rounds and XOUT. -/
def State.afterPass (s : State) : State :=
  { s.setWords (compress s.words s.m s.cr.toNat) with
    rc := s.cr
    off := if s.last then s.off else s.off + 8#64
    phase := if s.last then Phase.xff
      else if 8 ≤ s.msgLen.toNat - (s.off.toNat + 8) then Phase.ldblk else Phase.ldtail }

/-- The state words between XIN and the rounds, `v3` with the block injected (R143). -/
def State.injectedWords (s : State) : Words := { s.words with v3 := s.v3 ^^^ s.m }

/-- The state XOUT starts in. -/
def State.afterRounds (s : State) : State :=
  { s.setWords (sipRounds s.cr.toNat s.injectedWords) with rc := s.cr, phase := Phase.xout }

/-- XIN sets RC to 0, so all CR rounds are still to do. -/
theorem busyRun_xin_rounds {s : State} (hphase : s.phase = Phase.xin) (hport : s.port = []) (hcr : 1 ≤ s.cr.toNat) :
    BusyRun (1 + s.cr.toNat) s s.afterRounds := by
  have hxin : step s = .next { s.setWords s.injectedWords with rc := 0#64, phase := Phase.crnd } := by
    rw [step_uop hport (i := .xin) (by rw [hphase]; rfl)]
    exact xinInjectsTheBlock s
  refine (BusyRun.one hxin (by rw [hphase]; decide)).trans ?_
  obtain ⟨n, hn⟩ : ∃ n, s.cr.toNat = n + 1 := ⟨s.cr.toNat - 1, by omega⟩
  have hrounds := crnd_rounds n { s.setWords s.injectedWords with rc := 0#64, phase := Phase.crnd } rfl hport
    (by simp [hn])
  rw [← hn] at hrounds
  exact hrounds

theorem step_xout_afterRounds {s : State} (hport : s.port = [])
    (hfits : s.last = false → s.off.toNat + 8 ≤ s.msgLen.toNat) : step s.afterRounds = .next s.afterPass := by
  rw [step_uop (s := s.afterRounds) (i := .xout) hport rfl]
  exact execXout_eq (s := s.afterRounds) hfits

/-- A whole pass, busy before each of its steps. -/
theorem busyRun_pass {s : State} (hphase : s.phase = Phase.xin) (hport : s.port = []) (hcr : 1 ≤ s.cr.toNat)
    (hfits : s.last = false → s.off.toNat + 8 ≤ s.msgLen.toNat) : BusyRun (s.cr.toNat + 2) s s.afterPass := by
  have hbusy : s.afterRounds.phase ≠ Phase.idle := show Phase.xout ≠ Phase.idle by decide
  have hxout := BusyRun.one (step_xout_afterRounds hport hfits) hbusy
  have hsteps : s.cr.toNat + 2 = 1 + s.cr.toNat + 1 := by omega
  rw [hsteps]
  exact (busyRun_xin_rounds hphase hport hcr).trans hxout

/-- Settles O29: XIN, the rounds by induction on the rounds still to do (`crnd_rounds`), and XOUT. -/
theorem compressionPassIsCompress : Obligations.CompressionPassIsCompress := by
  rintro s _ hphase hport hcr hfits rfl
  obtain ⟨hrun, _⟩ := busyRun_pass hphase hport hcr hfits
  exact hrun

end Sys2Proof.Machine
end

section
/-! The Finalizer (spec/43_finalizer.md): LDTAIL, XFF and FOLD as they act on the whole state, and the finalisation from
XFF to FOLD. -/

namespace Sys2Proof.Machine

open Sys2Proof

/-! ### LDTAIL, XFF and FOLD (R160, R164, R166) -/

/-- Settles O21: the bytes are those the read sees. -/
theorem ldtailBuildsTheLengthTaggedBlock : Obligations.LdtailBuildsTheLengthTaggedBlock := by
  intro s n hlen hn hcap
  refine ⟨s.bytesReadAt .msg s.off.toNat, s.draws + n,
    fun _ _ _ _ hwritten => Buffer.readByte_of_some hwritten _, ?_⟩
  have hleft : s.msgLen.toNat - s.off.toNat = n := by omega
  show execLdtail s = _
  rcases execLdtail_cases s with ⟨hpast, _⟩ | ⟨_, _, e⟩ | ⟨_, hfar, _⟩
  · omega
  · rw [e, hleft, readU64le_bytesReadAt]
    rfl
  · omega

/-- Settles O26: XFF is its own equation. -/
theorem xffPerturbsTheState : Obligations.XffPerturbsTheState := by
  intro s
  show execXff s = _
  rfl

/-- Settles O28: FOLD is its own equation. -/
theorem foldProducesTheOutput : Obligations.FoldProducesTheOutput := by
  intro s
  show execFold s = _
  rfl

/-! ### The finalisation rounds (R168) -/

/-- The state words after XFF. -/
def State.perturbedWords (s : State) : Words := { s.words with v2 := s.v2 ^^^ finalConst }

/-- The state FOLD starts in. -/
def State.afterFrnd (s : State) : State :=
  { s.setWords (sipRounds s.dr.toNat s.perturbedWords) with rc := s.dr, phase := Phase.fold }

/-- The xor of the four state words, which FOLD writes to RESULT. -/
def Words.fold (w : Words) : Word := w.v0 ^^^ w.v1 ^^^ w.v2 ^^^ w.v3

/-- The state after XFF, the DR rounds and FOLD. -/
def State.finished (s : State) : State :=
  { s.afterFrnd with
    result := (sipRounds s.dr.toNat s.perturbedWords).fold, done := true, phase := Phase.idle }

/-- XFF sets RC to 0, so all DR rounds are still to do. -/
theorem busyRun_xff_rounds {s : State} (hphase : s.phase = Phase.xff) (hport : s.port = []) (hdr : 1 ≤ s.dr.toNat) :
    BusyRun (1 + s.dr.toNat) s s.afterFrnd := by
  have hxff : step s = .next { s.setWords s.perturbedWords with rc := 0#64, phase := Phase.frnd } := by
    rw [step_uop hport (i := .xff) (by rw [hphase]; rfl)]
    exact xffPerturbsTheState s
  refine (BusyRun.one hxff (by rw [hphase]; decide)).trans ?_
  obtain ⟨n, hn⟩ : ∃ n, s.dr.toNat = n + 1 := ⟨s.dr.toNat - 1, by omega⟩
  have hrounds := frnd_rounds n { s.setWords s.perturbedWords with rc := 0#64, phase := Phase.frnd } rfl hport
    (by simp [hn])
  rw [← hn] at hrounds
  exact hrounds

/-- The whole finalisation, busy before each of its steps. -/
theorem busyRun_finish {s : State} (hphase : s.phase = Phase.xff) (hport : s.port = []) (hdr : 1 ≤ s.dr.toNat) :
    BusyRun (1 + s.dr.toNat + 1) s s.finished := by
  have hfold : step s.afterFrnd = .next s.finished := by
    rw [step_uop (s := s.afterFrnd) (i := .fold) hport rfl]
    exact foldProducesTheOutput s.afterFrnd
  exact (busyRun_xff_rounds hphase hport hdr).trans (.one hfold (show Phase.fold ≠ Phase.idle by decide))

end Sys2Proof.Machine
end

section
/-! Whole runs (spec/43_finalizer.md R171): from INIT the engine, left to itself, absorbs the full blocks one pass each,
then the tail block, and finalises. -/

namespace Sys2Proof.Machine

open Sys2Proof

/-- The first `n` bytes of a buffer have been written, and are those of `f`. -/
def Written (buf : Buffer) (n : Nat) (f : Nat → Byte) : Prop := ∀ i, i < n → buf.read? i = some (f i)

/-- A little-endian read depends on the bytes read alone (R120). -/
theorem readU64le_congr {f g : Nat → Byte} {o n : Nat} (h : ∀ a, o ≤ a → a < o + n → f a = g a) :
    readU64le f o n = readU64le g o n :=
  leWord_congr fun i hi => h (o + i) (by omega) (by omega)

/-- What a run over the `len` message bytes of `b`, with `c` and `d` rounds, rests on: the engine is left to itself, the
message is written and fits, the counts in effect are positive, and no error has been taken. -/
structure Hashing (b : Nat → Byte) (len c d : Nat) (s : State) : Prop where
  port : s.port = []
  msgLen : s.msgLen.toNat = len
  fits : len ≤ s.msgCap.toNat
  written : Written s.msg len b
  cr : s.cr.toNat = c
  dr : s.dr.toNat = d
  crPos : 1 ≤ c
  drPos : 1 ≤ d
  error : s.error = false

section
variable {k b : Nat → Byte} {len c d n : Nat} {s t : State}

/-- A run goes on: the working registers and the outcome's value move, what the run rests on stays. -/
theorem Hashing.of_moved (h : Hashing b len c d s) (ht : t = { s with
      v0 := t.v0, v1 := t.v1, v2 := t.v2, v3 := t.v3, m := t.m, phase := t.phase, off := t.off, rc := t.rc
      last := t.last, done := t.done, result := t.result, draws := t.draws }) : Hashing b len c d t := by
  rw [ht]
  exact { h with }

/-! ### The loads of a written message -/

/-- The state after a load of the block word `w` (R142, R160). -/
def State.loaded (s : State) (w : Word) (last : Bool) (drawn : Nat) : State :=
  { s with m := w, last := last, phase := Phase.xin, draws := drawn }

/-- LDBLK with the message written loads the block of the message (R142). -/
theorem Hashing.step_ldblk (h : Hashing b len c d s) (hphase : s.phase = Phase.ldblk) (hfull : s.off.toNat + 8 ≤ len) :
    ∃ drawn, step s = .next (s.loaded (readU64le b s.off.toNat 8) false drawn) := by
  obtain ⟨b', drawn, hbytes, he⟩ := ldblkLoadsABlockInsideTheBuffer s (hfull.trans h.fits)
  refine ⟨drawn, ?_⟩
  rw [step_uop h.port (i := .ldblk) (by rw [hphase]; rfl), he,
    readU64le_congr fun a ha hlt => hbytes a ha hlt (b a) (h.written a (by omega))]
  rfl

/-- LDTAIL with the message written builds the tail block of R168. -/
theorem Hashing.step_ldtail (h : Hashing b len c d s) (hphase : s.phase = Phase.ldtail)
    (hoff : s.off.toNat = len - len % 8) :
    ∃ drawn, step s = .next (s.loaded (tailBlock b len) true drawn) := by
  have hlen := h.msgLen
  obtain ⟨b', drawn, hbytes, he⟩ := ldtailBuildsTheLengthTaggedBlock s (len % 8) (by omega) (by omega)
    (hlen.trans_le h.fits)
  refine ⟨drawn, ?_⟩
  rw [step_uop h.port (i := .ldtail) (by rw [hphase]; rfl), he,
    readU64le_congr fun a ha hlt => hbytes a ha (by omega) (b a) (h.written a (by omega)), hlen, hoff]
  rfl

/-- A load and the pass that takes its block in (R146). -/
theorem Hashing.busyRun_load_pass {w : Word} {last : Bool} {drawn : Nat} (h : Hashing b len c d s)
    (hbusy : s.phase ≠ Phase.idle) (hload : step s = .next (s.loaded w last drawn))
    (hfull : last = false → s.off.toNat + 8 ≤ len) : BusyRun (c + 3) s (s.loaded w last drawn).afterPass := by
  have hu : Hashing b len c d (s.loaded w last drawn) := h.of_moved rfl
  have hpass := busyRun_pass (s := s.loaded w last drawn) rfl hu.port (hu.cr ▸ hu.crPos)
    fun hlast => (hfull hlast).trans hu.msgLen.ge
  have hsteps : c + 3 = 1 + ((s.loaded w last drawn).cr.toNat + 2) := by
    rw [hu.cr]
    omega
  rw [hsteps]
  exact (BusyRun.one hload hbusy).trans hpass

/-! ### Absorbing (R147) -/

/-- The engine is about to load the block or the tail after `n` absorbed blocks. -/
structure AtLoad (k b : Nat → Byte) (len c d n : Nat) (s : State) : Prop extends Hashing b len c d s where
  off : s.off.toNat = 8 * n
  words : s.words = absorbBlocks (readU64le k 0 8) (readU64le k 8 8) b c n
  phase : s.phase = if 8 ≤ len - 8 * n then Phase.ldblk else Phase.ldtail

/-- INIT with the key written leads to the first load (R140). -/
theorem Hashing.init (h : Hashing b len c d s) (hphase : s.phase = Phase.init) (hkey : Written s.key 16 k) :
    ∃ t, BusyRun 1 s t ∧ AtLoad k b len c d 0 t := by
  have hbyte : ∀ a, a < 16 → s.bytesReadAt .key 0 a = k a := fun a ha => Buffer.readByte_of_some (hkey a ha) _
  have hk0 : readU64le (s.bytesReadAt .key 0) 0 8 = readU64le k 0 8 := readU64le_congr fun a _ ha => hbyte a (by omega)
  have hk1 : readU64le (s.bytesReadAt .key 0) 8 8 = readU64le k 8 8 := readU64le_congr fun a _ ha => hbyte a (by omega)
  have hstep := (step_uop h.port (i := .init) (by rw [hphase]; rfl)).trans (execInit_eq_readU64le s)
  rw [hk0, hk1, State.nextLoad_zero, h.msgLen] at hstep
  exact ⟨_, .one hstep (by rw [hphase]; decide), { h.of_moved rfl with off := rfl, words := rfl, phase := rfl }⟩

/-- One full block: LDBLK and a pass. -/
theorem AtLoad.block (h : AtLoad k b len c d n s) (hfull : 8 * (n + 1) ≤ len) :
    ∃ t, BusyRun (c + 3) s t ∧ AtLoad k b len c d (n + 1) t := by
  have hoff := h.off
  have hphase : s.phase = Phase.ldblk := h.phase.trans (if_pos (by omega))
  obtain ⟨drawn, hload⟩ := h.step_ldblk hphase (by omega)
  have hrun := h.busyRun_load_pass (by rw [hphase]; decide) hload fun _ => by omega
  refine ⟨_, hrun, { h.of_moved rfl with off := ?_, words := ?_, phase := ?_ }⟩
  · show (s.off + 8#64).toNat = 8 * (n + 1)
    have hlt := s.msgLen.isLt
    have hlen := h.msgLen
    bv_omega
  · show compress s.words (readU64le b s.off.toNat 8) s.cr.toNat = _
    rw [h.words, hoff, h.cr]
    rfl
  · show (if 8 ≤ s.msgLen.toNat - (s.off.toNat + 8) then Phase.ldblk else Phase.ldtail) = _
    rw [h.msgLen, hoff]
    rfl

/-- The first `n` full blocks, one after the other. -/
theorem AtLoad.blocks (h : AtLoad k b len c d 0 s) (hfull : 8 * n ≤ len) :
    ∃ t, BusyRun (n * (c + 3)) s t ∧ AtLoad k b len c d n t := by
  induction n with
  | zero => exact ⟨s, by rw [Nat.zero_mul]; exact .zero s, h⟩
  | succ n ih =>
    obtain ⟨t, hrun, ht⟩ := ih (by omega)
    obtain ⟨u, hblock, hu⟩ := ht.block hfull
    exact ⟨u, by rw [Nat.succ_mul]; exact hrun.trans hblock, hu⟩

/-! ### The tail and the end of the run (R168, R170) -/

/-- The tail block: LDTAIL and a pass, after which the engine is about to finalise. -/
theorem AtLoad.tail (h : AtLoad k b len c d (len / 8) s) :
    ∃ t, BusyRun (c + 3) s t ∧ Hashing b len c d t ∧ t.phase = Phase.xff ∧
      t.words = compress (absorb (readU64le k 0 8) (readU64le k 8 8) b len c) (tailBlock b len) c := by
  have hoff := h.off
  have hphase : s.phase = Phase.ldtail := h.phase.trans (if_neg (by omega))
  obtain ⟨drawn, hload⟩ := h.step_ldtail hphase (by omega)
  have hrun := h.busyRun_load_pass (by rw [hphase]; decide) hload (by simp)
  refine ⟨_, hrun, h.of_moved rfl, rfl, ?_⟩
  show compress s.words (tailBlock b len) s.cr.toNat = _
  rw [h.words, h.cr]
  rfl

/-- The state a run ends in, with the outcome DONE and the value `r` in RESULT. -/
def DoneWith (t : State) (r : Word) : Prop := t.phase = Phase.idle ∧ t.done = true ∧ t.error = false ∧ t.result = r

/-- Finalisation of the words `v` that the tail block left. -/
theorem Hashing.finish {v : Words} (h : Hashing b len c d s) (hphase : s.phase = Phase.xff)
    (hwords : s.words = compress v (tailBlock b len) c) :
    ∃ t, BusyRun (1 + d + 1) s t ∧ DoneWith t (finalize v b len c d) := by
  have hrun := busyRun_finish hphase h.port (h.dr ▸ h.drPos)
  rw [h.dr] at hrun
  refine ⟨_, hrun, rfl, rfl, h.error, ?_⟩
  have hperturbed : s.perturbedWords = { s.words with v2 := s.words.v2 ^^^ finalConst } := rfl
  show (sipRounds s.dr.toNat s.perturbedWords).fold = _
  rw [h.dr, hperturbed, hwords]
  rfl

/-- From INIT to FOLD the engine computes `siphash_core` in exactly the listed number of steps, busy before each. -/
theorem Hashing.busyRun_siphashCore (h : Hashing b len c d s) (hphase : s.phase = Phase.init)
    (hkey : Written s.key 16 k) :
    ∃ t, BusyRun (doneSteps len c d) s t ∧ DoneWith t (siphashCore k b len c d) := by
  obtain ⟨s₁, hinit, h₁⟩ := h.init hphase hkey
  obtain ⟨s₂, hblocks, h₂⟩ := h₁.blocks (n := len / 8) (by omega)
  obtain ⟨s₃, htail, h₃, hxff, hwords⟩ := h₂.tail
  obtain ⟨t, hfinish, hdone⟩ := h₃.finish hxff hwords
  have hsteps : doneSteps len c d = 1 + len / 8 * (c + 3) + (c + 3) + (1 + d + 1) := by
    rw [doneSteps, Nat.succ_mul]
    omega
  exact ⟨t, hsteps ▸ ((hinit.trans hblocks).trans htail).trans hfinish, hdone⟩

/-- An accepted command meets what its run rests on (R184). -/
theorem hashing_started {op : Op} (hc : 1 ≤ (s.countC op).toNat) (hd : 1 ≤ (s.countD op).toNat)
    (hfits : s.msgLen.toNat ≤ s.msgCap.toNat) (hmsg : Written s.msg s.msgLen.toNat b) :
    Hashing b s.msgLen.toNat (s.countC op).toNat (s.countD op).toNat (s.started op []) where
  port := rfl
  msgLen := rfl
  fits := hfits
  written := hmsg
  cr := rfl
  dr := rfl
  crPos := hc
  drPos := hd
  error := rfl

end

theorem ne_zero_of_one_le_toNat {x : Word} (h : 1 ≤ x.toNat) : x ≠ 0#64 := by
  rintro rfl
  exact absurd h (by decide)

/-- Settles O52: the accepting step, then the run from INIT. -/
theorem acceptedCommandComputesSipHash : Obligations.AcceptedCommandComputesSipHash := by
  intro s op k b hidle hport hkeyLen hc hd hfits hkey hmsg
  obtain ⟨t, ⟨hrun, _⟩, hdone⟩ := (hashing_started hc hd hfits hmsg).busyRun_siphashCore rfl hkey
  have haccept := step_command hidle hkeyLen (ne_zero_of_one_le_toNat hc) (ne_zero_of_one_le_toNat hd) hport
  rw [Nat.add_comm 1]
  exact ⟨t, run_step haccept hrun, hdone⟩

end Sys2Proof.Machine
end

section
/-! Requests between the engine's steps (spec/43_finalizer.md R171, spec/44_commands.md R250): while the engine is busy they
touch the port and the response alone, which no micro-operation reads. -/

namespace Sys2Proof.Machine

open Sys2Proof

/-- The same engine with other events to come and another last response. -/
def State.withHost (s : State) (p : List Event) (r : Option Word) : State := { s with port := p, rdata := r }

/-! ### The engine's steps -/

/-- MemRead neither reads nor writes the port or the response (R121). -/
theorem State.memRead_withHost (s : State) (p : List Event) (r : Option Word) (sp : Space) (a n : Nat) :
    (s.withHost p r).memRead sp a n = (s.memRead sp a n).map fun (w, u) => (w, u.withHost p r) := by
  have hcapacity : (s.withHost p r).capacity sp = s.capacity sp := by cases sp <;> rfl
  have hbuffer : (s.withHost p r).buffer sp = s.buffer sp := by cases sp <;> rfl
  unfold State.memRead
  rw [hcapacity, hbuffer, apply_ite (Except.map _)]
  rfl

theorem State.tailRead_withHost (s : State) (p : List Event) (r : Option Word) :
    (s.withHost p r).tailRead = s.tailRead.map fun (w, u) => (w, u.withHost p r) := by
  unfold State.tailRead
  rw [State.memRead_withHost, apply_ite (Except.map _), apply_ite (Except.map _)]
  rfl

theorem execLdblk_withHost {s t : State} (he : execLdblk s = .next t) (p : List Event) (r : Option Word) :
    execLdblk (s.withHost p r) = .next (t.withHost p r) := by
  have hoff : (s.withHost p r).off = s.off := rfl
  unfold execLdblk at he ⊢
  rw [hoff, State.memRead_withHost]
  cases h : s.memRead .msg s.off.toNat 8 <;> rw [h] at he <;> cases he <;> rfl

theorem execLdtail_withHost {s t : State} (he : execLdtail s = .next t) (p : List Event) (r : Option Word) :
    execLdtail (s.withHost p r) = .next (t.withHost p r) := by
  unfold execLdtail at he ⊢
  rw [State.tailRead_withHost]
  cases h : s.tailRead <;> rw [h] at he <;> cases he <;> rfl

/-- No micro-operation reads or writes the port or the response. -/
theorem exec_uop_withHost {s t : State} {i : Instr} (hd : decodeUop s.phase = .ok i) (he : exec i s = .next t)
    (p : List Event) (r : Option Word) : exec i (s.withHost p r) = .next (t.withHost p r) := by
  rcases decodeUop_cases s.phase with ⟨_, e⟩ | ⟨_, e⟩ | ⟨_, e⟩ | ⟨_, e⟩ | ⟨_, e⟩ | ⟨_, e⟩ | ⟨_, e⟩ | ⟨_, e⟩ | ⟨_, e⟩ |
    ⟨_, e⟩ | ⟨_, e⟩ <;> rw [e] at hd <;> cases hd <;> simp only [exec] at he ⊢
  · rw [execInit_eq] at he ⊢
    cases he
    rfl
  · exact execLdblk_withHost he p r
  · exact execLdtail_withHost he p r
  · cases he
    rfl
  · cases he
    rfl
  · unfold execXout at he ⊢
    split_ifs at he with hlast <;> cases he
    · exact if_pos hlast
    · exact if_neg hlast
  · cases he
    rfl
  · cases he
    rfl
  · cases he
    rfl

/-- The turn of a busy engine is the step it takes when left to itself, whatever comes after it. -/
theorem step_engine_withHost {s t : State} (hbusy : s.phase ≠ Phase.idle) (hport : s.port = [])
    (hstep : step s = .next t) (p : List Event) (r : Option Word) :
    t.port = [] ∧ step (s.withHost (.engine :: p) r) = .next (t.withHost p r) := by
  rcases step_cases hstep with ⟨u, hidle, rfl, _⟩ | ⟨u, i, hu, hd, he, _⟩ | ⟨w, rest, hw, _⟩ | ⟨rest, hw, _⟩
  · exact absurd hidle hbusy
  · have halone : u = s := hu.trans (State.setPort_self (by rw [hport]; rfl))
    subst halone
    refine ⟨by rw [exec_uop_keeps hd he]; exact hport, ?_⟩
    exact (step_engine rfl).trans ((engineTurn_ok (s := u.withHost p r) hd).trans (exec_uop_withHost hd he p r))
  · rw [hport] at hw
    cases hw
  · rw [hport] at hw
    cases hw

/-! ### The requests -/

theorem serveRequest_next (w : ReqWord) (s : State) : ∃ t, serveRequest w s = .next t := by
  rcases serveRequest_cases w s with ⟨i, _, e⟩ | ⟨_, _, e⟩ | ⟨_, e⟩ <;> rw [e]
  · exact exec_next i s
  · exact ⟨_, rfl⟩
  · exact ⟨_, rfl⟩

/-- A request to a busy engine is taken off the port and changes the response alone (R250). -/
theorem step_request_withHost {s : State} (hbusy : s.phase ≠ Phase.idle) (w : ReqWord) (p : List Event)
    (r : Option Word) : ∃ r', step (s.withHost (.request w :: p) r) = .next (s.withHost p r') := by
  obtain ⟨t, ht⟩ := serveRequest_next w (s.withHost p none)
  have hstep : step (s.withHost (.request w :: p) r) = .next t := (step_request rfl).trans ht
  rcases serveRequest_busy (s := s.withHost p none) hbusy ht with rfl | ⟨v, rfl⟩
  · exact ⟨none, hstep⟩
  · exact ⟨some v, hstep⟩

/-! ### The run -/

/-- A busy run of at least one step begins with a step of a busy engine. -/
theorem BusyRun.uncons {n : Nat} {s t : State} (h : BusyRun (n + 1) s t) :
    s.phase ≠ Phase.idle ∧ ∃ u, step s = .next u ∧ BusyRun n u t := by
  obtain ⟨hrun, hbusy⟩ := h
  obtain ⟨_, hs, hphase⟩ := hbusy 0 (Nat.succ_pos n)
  cases hs
  refine ⟨hphase, ?_⟩
  cases hstep : step s with
  | next u =>
    simp only [run, hstep] at hrun hbusy
    exact ⟨u, rfl, hrun, fun k hk => by simpa only [run, hstep] using hbusy (k + 1) (Nat.succ_lt_succ hk)⟩
  | fault => simp [run, hstep] at hrun
  | refused => simp [run, hstep] at hrun

@[simp] theorem engineTurns_request (w : ReqWord) (evs : List Event) :
    engineTurns (.request w :: evs) = engineTurns evs := rfl

@[simp] theorem engineTurns_engine (evs : List Event) : engineTurns (.engine :: evs) = engineTurns evs + 1 :=
  List.countP_cons_of_pos rfl

/-- A busy run of the engine left to itself, with requests in between and its last step at the end of the schedule, is
the same run of the engine. -/
theorem BusyRun.interleaved {t : State} {evs : List Event} (hreset : .reset ∉ evs) (rest : List Event) {s : State}
    (hport : s.port = []) (h : BusyRun (engineTurns evs + 1) s t) (r : Option Word) :
    ∃ r', run (evs.length + 1) (s.withHost (evs ++ .engine :: rest) r) = .next (t.withHost rest r') := by
  induction evs generalizing s r with
  | nil =>
    obtain ⟨hbusy, u, hstep, hend, _⟩ := h.uncons
    cases hend
    exact ⟨r, run_step (step_engine_withHost hbusy hport hstep rest r).2 rfl⟩
  | cons e evs ih =>
    obtain ⟨hne, hmore⟩ := List.ne_and_not_mem_of_not_mem_cons hreset
    obtain ⟨hbusy, u, hstep, hrun⟩ := h.uncons
    cases e with
    | request w =>
      obtain ⟨r₁, hserved⟩ := step_request_withHost hbusy w (evs ++ .engine :: rest) r
      obtain ⟨r₂, hr⟩ := ih hmore hport h r₁
      exact ⟨r₂, run_step hserved hr⟩
    | engine =>
      obtain ⟨huport, hturn⟩ := step_engine_withHost hbusy hport hstep (evs ++ .engine :: rest) r
      rw [engineTurns_engine] at hrun
      obtain ⟨r₁, hr⟩ := ih hmore huport hrun r
      exact ⟨r₁, run_step hturn hr⟩
    | reset => exact absurd rfl hne

/-- Settles O53: the run from INIT left to itself, with the requests put in between. -/
theorem interleavedRequestsDoNotChangeTheHash : Obligations.InterleavedRequestsDoNotChangeTheHash := by
  intro s op k b evs rest hidle hport hkeyLen hc hd hfits hkey hmsg hreset hturns
  obtain ⟨t, hrun, hdone⟩ := (hashing_started hc hd hfits hmsg).busyRun_siphashCore rfl hkey
  rw [← hturns] at hrun
  obtain ⟨r, hinterleaved⟩ := hrun.interleaved hreset rest rfl none
  have haccept := step_command hidle hkeyLen (ne_zero_of_one_le_toNat hc) (ne_zero_of_one_le_toNat hd) hport
  rw [Nat.add_assoc, Nat.add_comm 1]
  exact ⟨t.withHost rest r, run_step haccept hinterleaved, rfl, hdone⟩

end Sys2Proof.Machine
end

section
/-! The commands in IDLE (spec/44_commands.md R184 to R186): the two validation errors, the start of a run, and HASH24 as
HASH with the counts 2 and 4. -/

namespace Sys2Proof.Machine

open Sys2Proof

/-! ### Acceptance by its conditions (R184) -/

theorem State.accept_roundCount {s : State} {op : Op} (hkey : s.keyLen = 16#64)
    (hcount : s.countC op = 0#64 ∨ s.countD op = 0#64) :
    s.accept op = s.clearOutcome.errorEntry .invalidRoundCount := by
  simp [State.accept, hkey, hcount]

theorem State.accept_valid {s : State} {op : Op} (hkey : s.keyLen = 16#64) (hc : s.countC op ≠ 0#64)
    (hd : s.countD op ≠ 0#64) :
    s.accept op = { s.clearOutcome with cr := s.countC op, dr := s.countD op, phase := Phase.init } := by
  simp [State.accept, hkey, hc, hd]

/-- Acceptance writes neither C nor D. -/
theorem State.accept_counts (s : State) (op : Op) : (s.accept op).c = s.c ∧ (s.accept op).d = s.d := by
  rcases State.accept_cases s op with ⟨_, e⟩ | ⟨_, _, e⟩ | ⟨_, _, _, e⟩ <;> rw [e] <;> exact ⟨rfl, rfl⟩

/-- The counts that HASH24 has built in are 2 and 4, so validation never rejects them (R186). -/
theorem State.hash24_counts_ne_zero (s : State) : s.countC .hash24 ≠ 0#64 ∧ s.countD .hash24 ≠ 0#64 :=
  ⟨show 2#64 ≠ 0#64 by decide, show 4#64 ≠ 0#64 by decide⟩

/-- With 2 in C and 4 in D, HASH reads the counts that HASH24 has built in (R186). -/
theorem State.accept_hash_two_four (s : State) :
    { s with c := 2#64, d := 4#64 }.accept .hash = { s.accept .hash24 with c := 2#64, d := 4#64 } := by
  obtain ⟨hc, hd⟩ := s.hash24_counts_ne_zero
  by_cases hkey : s.keyLen = 16#64
  · rw [State.accept_valid hkey hc hd]
    exact State.accept_valid (s := { s with c := 2#64, d := 4#64 }) (op := .hash) hkey hc hd
  · rw [State.accept_keyLen hkey]
    exact State.accept_keyLen (s := { s with c := 2#64, d := 4#64 }) hkey .hash

/-! ### The commands -/

/-- Settles O30: acceptance in IDLE, with the counts C and D past validation. -/
theorem hashStartsTheRun : Obligations.HashStartsTheRun := by
  intro s hidle hkey hc hd
  exact (exec_command_idle hidle .hash).trans (congrArg _ (State.accept_valid (op := .hash) hkey hc hd))

/-- Settles O31: the built-in counts are not 0, so KEY_LEN = 16 is all that validation asks for. -/
theorem hash24StartsTheRun : Obligations.Hash24StartsTheRun := by
  intro s hidle hkey
  obtain ⟨hc, hd⟩ := s.hash24_counts_ne_zero
  exact (exec_command_idle hidle .hash24).trans (congrArg _ (State.accept_valid hkey hc hd))

/-- In IDLE a command issued with a wrong key length takes InvalidKeyLength (R211). -/
theorem exec_command_keyLen {s : State} (hidle : s.phase = Phase.idle) (hkey : s.keyLen ≠ 16#64) (op : Op) :
    exec op.instr s = .next (s.clearOutcome.errorEntry .invalidKeyLength) := by
  rw [exec_command_idle hidle, State.accept_keyLen hkey]

/-- An error entry after the outcome is cleared, in IDLE: PHASE has its value already (R215, R217). -/
theorem State.clearOutcome_errorEntry {s : State} (hidle : s.phase = Phase.idle) (e : ErrorKind) :
    s.clearOutcome.errorEntry e = { s with result := 0#64, done := false, error := true, err := e.code } := by
  rw [State.errorEntry, ← hidle]
  rfl

/-- Settles O32: each failed check is an error entry in IDLE, the key length first. -/
theorem validationErrorsArePrecise : Obligations.ValidationErrorsArePrecise := by
  intro s hidle
  have hentry := State.clearOutcome_errorEntry hidle
  refine ⟨fun hkey => ⟨?_, ?_⟩, fun hkey hcount => ?_⟩
  · exact (exec_command_keyLen hidle hkey .hash).trans (congrArg _ (hentry .invalidKeyLength))
  · exact (exec_command_keyLen hidle hkey .hash24).trans (congrArg _ (hentry .invalidKeyLength))
  · exact (exec_command_idle hidle .hash).trans
      (congrArg _ ((State.accept_roundCount (op := .hash) hkey hcount).trans (hentry .invalidRoundCount)))

/-! ### HASH24 and the three requests it stands for (R186) -/

/-- In IDLE a command word written to CMD is accepted. -/
theorem step_accept {s : State} {op : Op} {rest : List Event} (hidle : s.phase = Phase.idle)
    (hport : s.port = .request (packReq Kind.csrw 0#64 op.word) :: rest) :
    step s = .next ((s.takeRequest rest).accept op) := by
  rw [step_decoded_request hport (decodeReq_command op), exec_command_idle (s := s.takeRequest rest) hidle]

/-- In IDLE a CSRW request to another number than CMD is a configuration write. -/
theorem step_configWrite {s : State} {addr wdata : Word} {rest : List Event} (hidle : s.phase = Phase.idle)
    (haddr : addr ≠ Csr.cmd) (hport : s.port = .request (packReq Kind.csrw addr wdata) :: rest) :
    step s = .next ((s.takeRequest rest).configWrite addr wdata) := by
  rw [step_decoded_request hport (decodeReq_csrw addr wdata),
    exec_decodeCsrw_idle (s := s.takeRequest rest) (State.busy_eq_false.mpr hidle), if_neg haddr]

/-- The port takes a request off alike before and after a configuration write. -/
theorem State.takeRequest_configWrite (s : State) (addr wdata : Word) (p : List Event) :
    (s.configWrite addr wdata).takeRequest p = (s.takeRequest p).configWrite addr wdata := by
  unfold State.configWrite
  split_ifs <;> rfl

/-- In IDLE the writes of C and of D, one after the other. -/
theorem run_write_counts {s : State} {c d : Word} {rest : List Event} (hidle : s.phase = Phase.idle)
    (hport : s.port = .request (packReq Kind.csrw Csr.c c) :: .request (packReq Kind.csrw Csr.d d) :: rest) :
    run 2 s = .next { s.takeRequest rest with c := c, d := d } := by
  have hc := step_configWrite hidle (show Csr.c ≠ Csr.cmd by decide) hport
  have hd := step_configWrite (s := (s.takeRequest (.request (packReq Kind.csrw Csr.d d) :: rest)).configWrite Csr.c c)
    hidle (show Csr.d ≠ Csr.cmd by decide) rfl
  rw [State.takeRequest_configWrite] at hd
  exact run_step hc (run_step hd rfl)

/-- Settles O33: the two configuration writes put 2 and 4 where HASH reads its counts. -/
theorem hash24EqualsHashWithTwoAndFour : Obligations.Hash24EqualsHashWithTwoAndFour := by
  intro s rest three one hidle hthree hone
  have hcounts := run_write_counts (s := s.setPort three) hidle hthree
  have hhash := step_accept (op := .hash) (rest := rest)
    (s := { s.takeRequest (.request (packReq Kind.csrw Csr.cmd Op.hash.word) :: rest) with c := 2#64, d := 4#64 })
    hidle rfl
  have hhash24 := step_accept (s := s.setPort one) (op := .hash24) hidle hone
  refine ⟨{ s.takeRequest rest with c := 2#64, d := 4#64 }.accept .hash, (s.takeRequest rest).accept .hash24, ?_,
    run_step hhash24 rfl, State.accept_hash_two_four _, State.accept_counts _ .hash24⟩
  show run (2 + 1) (s.setPort three) = _
  rw [run_add, hcounts]
  exact run_step hhash rfl

end Sys2Proof.Machine
end

section
/-! How the outcome registers come and go (spec/44_commands.md R188): in IDLE they keep their values, and a run ends with
FOLD or with an error entry. -/

namespace Sys2Proof.Machine

open Sys2Proof

/-! ### In IDLE -/

/-- PHASE and the outcome registers DONE, ERROR, ERR and RESULT are the same. -/
def SameResult (s t : State) : Prop :=
  t.phase = s.phase ∧ t.done = s.done ∧ t.error = s.error ∧ t.err = s.err ∧ t.result = s.result

/-- A served request writes an outcome register only by accepting a command (R74, R218). -/
theorem serveRequest_sameResult {w : ReqWord} {s t : State} (he : serveRequest w s = .next t) :
    SameResult s t ∨ ∃ i, decodeReq w = .ok i ∧ (i = .hash ∨ i = .hash24) := by
  rcases serveRequest_effects he with ⟨v, rfl⟩ | rfl | ⟨_, hd, _⟩ | ⟨_, hd, _⟩ | ⟨_, addr, wdata, rfl⟩ |
    ⟨_, sp, addr, wdata, rfl⟩
  · exact .inl ⟨rfl, rfl, rfl, rfl, rfl⟩
  · exact .inl ⟨rfl, rfl, rfl, rfl, rfl⟩
  · exact .inr ⟨.hash, hd, .inl rfl⟩
  · exact .inr ⟨.hash24, hd, .inr rfl⟩
  · rw [State.configWrite_keeps s addr wdata _ rfl]
    exact .inl ⟨rfl, rfl, rfl, rfl, rfl⟩
  · rw [State.memWrite_keeps s sp addr wdata _ rfl]
    exact .inl ⟨rfl, rfl, rfl, rfl, rfl⟩

/-- Settles O35: the engine waits in IDLE, so only a request or reset is left. -/
theorem outcomeKeepsUntilNextCommandOrReset : Obligations.OutcomeKeepsUntilNextCommandOrReset := by
  intro s t hidle hstep
  rcases step_cases hstep with ⟨u, _, rfl, rfl, _⟩ | ⟨u, i, rfl, hd, _⟩ | ⟨w, rest, hport, he⟩ | ⟨rest, hport, _⟩
  · exact .inl ⟨hidle, rfl, rfl, rfl, rfl⟩
  · rw [State.setPort_phase, hidle] at hd
    cases hd
  · rcases serveRequest_sameResult he with ⟨hphase, hkept⟩ | ⟨i, hd, hcommand⟩
    · exact .inl ⟨hphase.trans hidle, hkept⟩
    · exact .inr (.inr ⟨w, rest, i, hport, hd, hcommand⟩)
  · exact .inr (.inl ⟨rest, hport⟩)

/-! ### At the end of a run -/

/-- A load that leads to IDLE has taken the error. -/
theorem execLdblk_ends {s t : State} (he : execLdblk s = .next t) (hend : t.phase = Phase.idle) :
    t = s.errorEntry .internalExtractionFailure := by
  rcases execLdblk_cases s with ⟨_, e⟩ | ⟨_, e⟩ <;> rw [e] at he <;> cases he
  · rfl
  · exact absurd hend (show Phase.xin ≠ Phase.idle by decide)

theorem execLdtail_ends {s t : State} (he : execLdtail s = .next t) (hend : t.phase = Phase.idle) :
    t = s.errorEntry .internalExtractionFailure := by
  rcases execLdtail_cases s with ⟨_, e⟩ | ⟨_, _, e⟩ | ⟨_, _, e⟩ <;> rw [e] at he <;> cases he
  · rfl
  · exact absurd hend (show Phase.xin ≠ Phase.idle by decide)
  · exact absurd hend (show Phase.xin ≠ Phase.idle by decide)

/-- The load that `next_load` selects is not IDLE (R29). -/
theorem State.nextLoad_ne_idle (s : State) (o : Word) : s.nextLoad o ≠ Phase.idle := by
  rcases s.nextLoad_mem o with e | e <;> rw [e] <;> decide

/-- A micro-operation leads to IDLE only as a load that takes the error, or as FOLD (R166, R216). -/
theorem exec_uop_ends {s t : State} {i : Instr} (hd : decodeUop s.phase = .ok i) (he : exec i s = .next t)
    (hend : t.phase = Phase.idle) :
    t = s.errorEntry .internalExtractionFailure ∨ execFold s = .next t := by
  rcases decodeUop_cases s.phase with ⟨_, e⟩ | ⟨_, e⟩ | ⟨_, e⟩ | ⟨_, e⟩ | ⟨_, e⟩ | ⟨_, e⟩ | ⟨_, e⟩ | ⟨_, e⟩ | ⟨_, e⟩ |
    ⟨_, e⟩ | ⟨_, e⟩ <;> rw [e] at hd <;> cases hd <;> simp only [exec] at he
  · rw [execInit_eq] at he
    cases he
    exact absurd hend (s.nextLoad_ne_idle 0#64)
  · exact .inl (execLdblk_ends he hend)
  · exact .inl (execLdtail_ends he hend)
  · cases he
    exact absurd hend (show Phase.crnd ≠ Phase.idle by decide)
  · cases he
    have hnext : (if s.rc + 1#64 = s.cr then Phase.xout else Phase.crnd) ≠ Phase.idle := by split_ifs <;> decide
    exact absurd hend hnext
  · rcases execXout_cases s with ⟨_, q⟩ | ⟨_, q⟩ <;> rw [q] at he <;> cases he
    · exact absurd hend (show Phase.xff ≠ Phase.idle by decide)
    · exact absurd hend (s.nextLoad_ne_idle _)
  · cases he
    exact absurd hend (show Phase.frnd ≠ Phase.idle by decide)
  · cases he
    have hnext : (if s.rc + 1#64 = s.dr then Phase.fold else Phase.frnd) ≠ Phase.idle := by split_ifs <;> decide
    exact absurd hend hnext
  · exact .inr he

/-- Settles O36: through the run the outcome is clear, so its last step sets one of DONE and ERROR alone. -/
theorem runEndsWithExactlyOneOutcome : Obligations.RunEndsWithExactlyOneOutcome := by
  intro s t hinv hbusy hstep hend
  have hrun := hinv.running hbusy
  rcases step_cases hstep with ⟨u, hidle, rfl, _⟩ | ⟨u, i, rfl, hd, he, _⟩ | ⟨w, rest, _, he⟩ | ⟨rest, hport, _⟩
  · exact absurd hidle hbusy
  · rcases exec_uop_ends hd he hend with rfl | hfold
    · exact .inr (.inr ⟨hrun.done, rfl, rfl, hrun.result⟩)
    · cases hfold
      exact .inr (.inl ⟨rfl, hrun.error, hrun.err⟩)
  · rcases serveRequest_busy (s := s.takeRequest rest) hbusy he with rfl | ⟨v, rfl⟩
    · exact absurd hend hbusy
    · exact absurd hend hbusy
  · exact .inl ⟨rest, hport⟩

end Sys2Proof.Machine
end

section
/-! The host requests (spec/44_commands.md R190 to R193): what CSRR answers, what CSRW does for each number, and the one
byte that KEYW and MSGW write. -/

namespace Sys2Proof.Machine

open Sys2Proof

/-! ### CSRR (R190) -/

theorem flagWord_eq_ofBool (b : Bool) : flagWord b = (BitVec.ofBool b).setWidth 64 := by
  cases b <;> rfl

/-- Settles O37: CSRR answers `csrRead`; the flags of STATUS are one-bit words, and numbers above 8 read 0. -/
theorem csrrAnswersTheRegister : Obligations.CsrrAnswersTheRegister := by
  intro s
  refine ⟨rfl, ?_, rfl, rfl, rfl, rfl, rfl, rfl, rfl, fun addr haddr => ?_⟩
  · simp only [← flagWord_eq_ofBool]
    rfl
  · exact congrArg (fun v => Host.Outcome.next (s.respond v)) (s.csrRead_reserved (.inr haddr))

/-! ### CSRW (R191) -/

/-- In IDLE a write to another number than CMD is a configuration write. -/
theorem execCsrw_configWrite {s : State} (hidle : s.phase = Phase.idle) {addr : Word} (haddr : addr ≠ Csr.cmd)
    (wdata : Word) : execCsrw addr wdata s = .next (s.configWrite addr wdata) := by
  simp [execCsrw, State.busy_eq_false.mpr hidle, haddr]

/-- In IDLE a command word written to CMD is its command (R35). -/
theorem execCsrw_command {s : State} (hidle : s.phase = Phase.idle) (op : Op) :
    execCsrw Csr.cmd op.word s = exec op.instr s := by
  rw [exec_command_idle hidle]
  cases op <;> simp [execCsrw, State.busy_eq_false.mpr hidle, decodeCmd, Op.word]

/-- Any other word written to CMD is dropped (R106). -/
theorem execCsrw_reservedCommand {wdata : Word} (h1 : wdata ≠ Op.hash.word) (h2 : wdata ≠ Op.hash24.word) (s : State) :
    execCsrw Csr.cmd wdata s = .next s := by
  simp [execCsrw, decodeCmd, h1, h2]

/-- Settles O38: the number decides between configuration, CMD and a dropped write; while busy every write is dropped. -/
theorem csrwWritesConfigurationOrIssuesTheCommand : Obligations.CsrwWritesConfigurationOrIssuesTheCommand := by
  intro s wdata
  refine ⟨fun hidle => ⟨?_, ?_, ?_, ?_, ?_, ?_, fun h1 h2 => ?_, fun addr haddr => ?_⟩, fun hbusy addr => ?_⟩
  · exact execCsrw_configWrite hidle (show Csr.keyLen ≠ Csr.cmd by decide) wdata
  · exact execCsrw_configWrite hidle (show Csr.msgLen ≠ Csr.cmd by decide) wdata
  · exact execCsrw_configWrite hidle (show Csr.c ≠ Csr.cmd by decide) wdata
  · exact execCsrw_configWrite hidle (show Csr.d ≠ Csr.cmd by decide) wdata
  · rintro rfl
    exact execCsrw_command hidle .hash
  · rintro rfl
    exact execCsrw_command hidle .hash24
  · exact execCsrw_reservedCommand h1 h2 s
  · have hne {n : Word} (hn : ¬ (n = 1#64 ∨ n = 2#64 ∨ 7 ≤ n.toNat)) : addr ≠ n := fun e => hn (e ▸ haddr)
    exact execCsrw_dropped (hne (by decide)) (hne (by decide)) (hne (by decide)) (hne (by decide)) (hne (by decide)) wdata s
  · exact execCsrw_busy (State.busy_eq_true.mpr hbusy) addr wdata

/-! ### KEYW and MSGW (R192, R193) -/

theorem lowByte_eq_extractLsb' (w : Word) : lowByte w = w.extractLsb' 0 8 :=
  BitVec.setWidth_eq_extractLsb' (by decide)

/-- In IDLE a byte write inside the space sets its byte. -/
theorem State.memWrite_inside {s : State} {sp : Space} {addr : Word} (hidle : s.phase = Phase.idle)
    (hinside : addr.toNat < s.capacity sp) (wdata : Word) :
    s.memWrite sp addr wdata = s.setBuffer sp ((s.buffer sp).write addr.toNat (wdata.extractLsb' 0 8)) := by
  simp [State.memWrite, State.busy_eq_false.mpr hidle, hinside, lowByte_eq_extractLsb']

/-- While busy, and outside the space, a byte write is dropped. -/
theorem State.memWrite_dropped {s : State} {sp : Space} {addr : Word}
    (h : s.phase ≠ Phase.idle ∨ s.capacity sp ≤ addr.toNat) (wdata : Word) : s.memWrite sp addr wdata = s := by
  rcases h with hbusy | houtside
  · exact State.memWrite_busy (State.busy_eq_true.mpr hbusy) sp addr wdata
  · exact State.memWrite_outside houtside wdata

/-- Settles O39: the byte write in space KEY, of capacity 16. -/
theorem keywWritesOneKeyByte : Obligations.KeywWritesOneKeyByte := by
  intro s addr wdata
  refine ⟨fun hidle hinside => ?_, fun h => congrArg Host.Outcome.next (State.memWrite_dropped (sp := .key) h wdata)⟩
  have hwrite := State.memWrite_inside (sp := .key) hidle (Nat.lt_succ_of_le hinside) wdata
  exact ⟨_, congrArg Host.Outcome.next hwrite, Buffer.read?_write_same _ _ _,
    fun a ha => Buffer.read?_write_other _ _ _ a ha, fun _ => rfl, rfl⟩

/-- Settles O40: the byte write in space MSG, of capacity MSG_CAP. -/
theorem msgwWritesOneMessageByte : Obligations.MsgwWritesOneMessageByte := by
  intro s addr wdata
  refine ⟨fun hidle hinside => ?_, fun h => congrArg Host.Outcome.next (State.memWrite_dropped (sp := .msg) h wdata)⟩
  have hwrite := State.memWrite_inside (sp := .msg) hidle hinside wdata
  exact ⟨_, congrArg Host.Outcome.next hwrite, Buffer.read?_write_same _ _ _,
    fun a ha => Buffer.read?_write_other _ _ _ a ha, fun _ => rfl, rfl⟩

end Sys2Proof.Machine
end

section
/-! The three errors (spec/60_exceptions.md R210 to R213): each operation that can set ERROR, with its cause and its code. -/

namespace Sys2Proof.Machine

open Sys2Proof

/-! ### The engine's error (R213) -/

/-- A load whose read goes past MSG_CAP: LDBLK reads up to OFF + 8, LDTAIL up to MSG_LEN (R142, R160). -/
def State.LoadsPast (s : State) : Prop :=
  s.phase = Phase.ldblk ∧ s.msgCap.toNat < s.off.toNat + 8 ∨ s.phase = Phase.ldtail ∧ s.msgCap.toNat < s.msgLen.toNat

theorem execLdblk_error {s t : State} (hphase : s.phase = Phase.ldblk) (he : execLdblk s = .next t) :
    t.error = s.error ∨ s.LoadsPast ∧ t = s.errorEntry .internalExtractionFailure := by
  rcases execLdblk_cases s with ⟨hpast, e⟩ | ⟨_, e⟩ <;> rw [e] at he <;> cases he
  · exact .inr ⟨.inl ⟨hphase, hpast⟩, rfl⟩
  · exact .inl rfl

theorem execLdtail_error {s t : State} (hphase : s.phase = Phase.ldtail) (he : execLdtail s = .next t) :
    t.error = s.error ∨ s.LoadsPast ∧ t = s.errorEntry .internalExtractionFailure := by
  rcases execLdtail_cases s with ⟨hpast, e⟩ | ⟨_, _, e⟩ | ⟨_, _, e⟩ <;> rw [e] at he <;> cases he
  · exact .inr ⟨.inr ⟨hphase, hpast⟩, rfl⟩
  · exact .inl rfl
  · exact .inl rfl

/-- Of the micro-operations only a load past MSG_CAP writes ERROR. -/
theorem exec_uop_error {s t : State} {i : Instr} (hd : decodeUop s.phase = .ok i) (he : exec i s = .next t) :
    t.error = s.error ∨ s.LoadsPast ∧ t = s.errorEntry .internalExtractionFailure := by
  rcases decodeUop_cases s.phase with ⟨_, e⟩ | ⟨_, e⟩ | ⟨hp, e⟩ | ⟨hp, e⟩ | ⟨_, e⟩ | ⟨_, e⟩ | ⟨_, e⟩ | ⟨_, e⟩ | ⟨_, e⟩ |
    ⟨_, e⟩ | ⟨_, e⟩ <;> rw [e] at hd <;> cases hd <;> simp only [exec] at he
  · rw [execInit_eq] at he
    cases he
    exact .inl rfl
  · exact execLdblk_error hp he
  · exact execLdtail_error hp he
  · cases he
    exact .inl rfl
  · cases he
    exact .inl rfl
  · rcases execXout_cases s with ⟨_, q⟩ | ⟨_, q⟩ <;> rw [q] at he <;> cases he <;> exact .inl rfl
  · cases he
    exact .inl rfl
  · cases he
    exact .inl rfl
  · cases he
    exact .inl rfl

/-- In a run a full block lies inside the message, so either load goes past MSG_CAP only where the message does (R28, R123). -/
theorem Inv.msgCap_lt_msgLen {s : State} (h : Inv s) (hpast : s.LoadsPast) : s.msgCap.toNat < s.msgLen.toNat := by
  rcases hpast with ⟨hphase, hpast⟩ | ⟨_, hpast⟩
  · have hfits := h.blockFits hphase
    omega
  · exact hpast

/-! ### The errors of validation (R211, R212) -/

/-- A command that sets ERROR does so by one of the two failed checks, each with its code. HASH24's counts never fail (R186). -/
theorem State.accept_error {s : State} {op : Op} (hset : (s.accept op).error = true) :
    (s.accept op).phase = Phase.idle ∧
    (s.keyLen ≠ 16#64 ∧ (s.accept op).err = 1#8 ∨
      op = .hash ∧ s.keyLen = 16#64 ∧ (s.c = 0#64 ∨ s.d = 0#64) ∧ (s.accept op).err = 2#8) := by
  rcases State.accept_cases s op with ⟨hkey, e⟩ | ⟨hkey, hcount, e⟩ | ⟨_, _, _, e⟩ <;> rw [e] at hset ⊢
  · exact ⟨rfl, .inl ⟨hkey, rfl⟩⟩
  · cases op with
    | hash => exact ⟨rfl, .inr ⟨rfl, hkey, hcount, rfl⟩⟩
    | hash24 => exact absurd hcount (not_or.mpr s.hash24_counts_ne_zero)
  · cases hset

/-- A served request writes ERROR only by accepting a command. -/
theorem serveRequest_error_or_accept {w : ReqWord} {s t : State} (he : serveRequest w s = .next t) :
    t.error = s.error ∨ ∃ op : Op, decodeReq w = .ok op.instr ∧ t = s.accept op := by
  rcases serveRequest_effects he with ⟨v, rfl⟩ | rfl | ⟨_, hd, ht⟩ | ⟨_, hd, ht⟩ | ⟨_, addr, wdata, rfl⟩ |
    ⟨_, sp, addr, wdata, rfl⟩
  · exact .inl rfl
  · exact .inl rfl
  · exact .inr ⟨.hash, hd, ht⟩
  · exact .inr ⟨.hash24, hd, ht⟩
  · rw [State.configWrite_keeps s addr wdata _ rfl]
    exact .inl rfl
  · rw [State.memWrite_keeps s sp addr wdata _ rfl]
    exact .inl rfl

/-! ### Every step -/

/-- Settles O34: the engine's waiting and reset set no error; a micro-operation sets one as a load past MSG_CAP, and a
request as a command that fails validation. -/
theorem errorsComeFromTheThreeCausesOnly : Obligations.ErrorsComeFromTheThreeCausesOnly := by
  intro s t hinv hstep hclear hset
  have unchanged (h : t.error = s.error) : False := by rw [h, hclear] at hset; cases hset
  rcases step_cases hstep with ⟨u, _, rfl, rfl, _⟩ | ⟨u, i, rfl, hd, he, hport⟩ | ⟨w, rest, hport, he⟩ | ⟨rest, _, rfl⟩
  · exact (unchanged rfl).elim
  · rcases exec_uop_error hd he with hkept | ⟨hpast, rfl⟩
    · exact (unchanged hkept).elim
    · have hlong := hinv.msgCap_lt_msgLen hpast
      exact ⟨rfl, .inr (.inr ⟨hport, hpast.imp_right And.left, hlong, rfl⟩)⟩
  · rcases serveRequest_error_or_accept he with hkept | ⟨op, hd, rfl⟩
    · exact (unchanged hkept).elim
    · obtain ⟨hphase, ⟨hkey, hcode⟩ | ⟨rfl, hkey, hcount, hcode⟩⟩ := State.accept_error hset
      · exact ⟨hphase, .inl ⟨w, rest, op.instr, hport, hd, by cases op <;> simp [Op.instr], hkey, hcode⟩⟩
      · exact ⟨hphase, .inr (.inl ⟨w, rest, hport, hd, hkey, hcount, hcode⟩)⟩
  · cases hset

end Sys2Proof.Machine
end

section
/-! The frame of a run (spec/70_reset_and_hazards.md R247): commands and micro-operations leave the inputs alone. -/

namespace Sys2Proof.Machine

open Sys2Proof

/-! ### The loads, whatever bytes were written -/

/-- LDBLK takes the error past MSG_CAP, and else loads some word (R142, U1). -/
theorem execLdblk_loads (s : State) :
    (s.msgCap.toNat < s.off.toNat + 8 ∧ execLdblk s = .next (s.errorEntry .internalExtractionFailure)) ∨
    (s.off.toNat + 8 ≤ s.msgCap.toNat ∧ ∃ w drawn, execLdblk s = .next (s.loaded w false drawn)) := by
  rcases execLdblk_cases s with ⟨hpast, e⟩ | ⟨hinside, e⟩
  · exact .inl ⟨hpast, e⟩
  · exact .inr ⟨hinside, _, _, e⟩

/-- LDTAIL takes the error when the message goes past MSG_CAP, and else loads some word (R160, U1). -/
theorem execLdtail_loads (s : State) :
    (s.msgCap.toNat < s.msgLen.toNat ∧ execLdtail s = .next (s.errorEntry .internalExtractionFailure)) ∨
    (s.msgLen.toNat ≤ s.msgCap.toNat ∧ ∃ w drawn, execLdtail s = .next (s.loaded w true drawn)) := by
  rcases execLdtail_cases s with ⟨hpast, e⟩ | ⟨hinside, _, e⟩ | ⟨hinside, _, e⟩
  · exact .inl ⟨hpast, e⟩
  · exact .inr ⟨hinside, _, _, e⟩
  · exact .inr ⟨hinside, _, _, e⟩

/-! ### What commands and micro-operations leave alone -/

/-- Two states with the same buffers, capacity and configuration. -/
structure SameInputs (s t : State) : Prop extends SameBuffers s t where
  keyLen : t.keyLen = s.keyLen
  msgLen : t.msgLen = s.msgLen
  c : t.c = s.c
  d : t.d = s.d

theorem SameInputs.refl (s : State) : SameInputs s s := ⟨⟨rfl, rfl, rfl⟩, rfl, rfl, rfl, rfl⟩

theorem State.errorEntry_sameInputs (s : State) (e : ErrorKind) : SameInputs s (s.errorEntry e) :=
  ⟨⟨rfl, rfl, rfl⟩, rfl, rfl, rfl, rfl⟩

theorem State.loaded_sameInputs (s : State) (w : Word) (last : Bool) (drawn : Nat) :
    SameInputs s (s.loaded w last drawn) := ⟨⟨rfl, rfl, rfl⟩, rfl, rfl, rfl, rfl⟩

theorem State.accept_sameInputs (s : State) (op : Op) : SameInputs s (s.accept op) := by
  rcases State.accept_cases s op with ⟨_, e⟩ | ⟨_, _, e⟩ | ⟨_, _, _, e⟩ <;> rw [e] <;>
    exact ⟨⟨rfl, rfl, rfl⟩, rfl, rfl, rfl, rfl⟩

/-- A command is dropped or accepted; neither writes an input (R184). -/
theorem exec_command_sameInputs (op : Op) (s : State) : ∃ t, exec op.instr s = .next t ∧ SameInputs s t := by
  by_cases hidle : s.phase = Phase.idle
  · exact ⟨_, exec_command_idle hidle op, s.accept_sameInputs op⟩
  · have hbusy := State.busy_eq_true.mpr hidle
    cases op with
    | hash => exact ⟨s, execHash_busy hbusy, .refl s⟩
    | hash24 => exact ⟨s, execHash24_busy hbusy, .refl s⟩

/-- Settles O48: the commands by acceptance, each micro-operation by what it writes, in every phase. -/
theorem commandsAndMicroOperationsKeepTheInputs : Obligations.CommandsAndMicroOperationsKeepTheInputs := by
  intro i s hi
  suffices h : ∃ t, exec i s = .next t ∧ SameInputs s t by
    obtain ⟨t, he, ⟨hkey, hmsg, hcap⟩, hkeyLen, hmsgLen, hc, hd⟩ := h
    exact ⟨t, he, fun a => by rw [hkey], fun a => by rw [hmsg], hkeyLen, hmsgLen, hc, hd, hcap⟩
  cases i with
  | csrr | csrw | keyw | msgw => simp at hi
  | hash => exact exec_command_sameInputs .hash s
  | hash24 => exact exec_command_sameInputs .hash24 s
  | init => exact ⟨_, execInit_eq s, ⟨rfl, rfl, rfl⟩, rfl, rfl, rfl, rfl⟩
  | ldblk =>
    rcases execLdblk_loads s with ⟨_, e⟩ | ⟨_, w, drawn, e⟩
    · exact ⟨_, e, s.errorEntry_sameInputs _⟩
    · exact ⟨_, e, s.loaded_sameInputs w false drawn⟩
  | ldtail =>
    rcases execLdtail_loads s with ⟨_, e⟩ | ⟨_, w, drawn, e⟩
    · exact ⟨_, e, s.errorEntry_sameInputs _⟩
    · exact ⟨_, e, s.loaded_sameInputs w true drawn⟩
  | xout =>
    rcases execXout_cases s with ⟨_, e⟩ | ⟨_, e⟩ <;> exact ⟨_, e, ⟨rfl, rfl, rfl⟩, rfl, rfl, rfl, rfl⟩
  | xin | crnd | xff | frnd | fold => exact ⟨_, rfl, ⟨rfl, rfl, rfl⟩, rfl, rfl, rfl, rfl⟩

end Sys2Proof.Machine
end

section
/-! Reset, the way out of IDLE, and the write lock (spec/70_reset_and_hazards.md R240, R241, R250). -/

namespace Sys2Proof.Machine

open Sys2Proof

/-- Settles O12: the step of the reset event, with its state written out as its record update. -/
theorem resetEventAbandonsTheRun : Obligations.ResetEventAbandonsTheRun := by
  intro s rest hport
  exact step_reset hport

/-! ### The way out of IDLE (R184, R241) -/

/-- Acceptance that does not end in IDLE has passed validation and started a run. -/
theorem State.accept_starts {s : State} {op : Op} (hbusy : (s.accept op).phase ≠ Phase.idle) :
    s.keyLen = 16#64 ∧ s.countC op ≠ 0#64 ∧ s.countD op ≠ 0#64 ∧ (s.accept op).phase = Phase.init := by
  rcases State.accept_cases s op with ⟨_, e⟩ | ⟨_, _, e⟩ | ⟨hkey, hc, hd, e⟩ <;> rw [e] at hbusy ⊢
  · exact absurd rfl hbusy
  · exact absurd rfl hbusy
  · exact ⟨hkey, hc, hd, rfl⟩

/-- A request served in IDLE leaves it only as a command that starts a run. -/
theorem serveRequest_leaves_idle {w : ReqWord} {s t : State} (hidle : s.phase = Phase.idle)
    (he : serveRequest w s = .next t) (hbusy : t.phase ≠ Phase.idle) :
    ∃ op : Op, decodeReq w = .ok op.instr ∧ t = s.accept op := by
  rcases serveRequest_effects he with ⟨v, rfl⟩ | rfl | ⟨_, hd, ht⟩ | ⟨_, hd, ht⟩ | ⟨_, addr, wdata, rfl⟩ |
    ⟨_, sp, addr, wdata, rfl⟩
  · exact absurd hidle hbusy
  · exact absurd hidle hbusy
  · exact ⟨.hash, hd, ht⟩
  · exact ⟨.hash24, hd, ht⟩
  · rw [State.configWrite_keeps s addr wdata _ rfl] at hbusy
    exact absurd hidle hbusy
  · rw [State.memWrite_keeps s sp addr wdata _ rfl] at hbusy
    exact absurd hidle hbusy

/-- Settles O10: the engine waits in IDLE and reset leads to it, so a command that passes validation is left. -/
theorem runStartsOnlyByAnAcceptedCommand : Obligations.RunStartsOnlyByAnAcceptedCommand := by
  intro s t hidle hstep hbusy
  rcases step_cases hstep with ⟨u, _, rfl, rfl, _⟩ | ⟨u, i, rfl, hd, _⟩ | ⟨w, rest, hport, he⟩ | ⟨rest, _, rfl⟩
  · exact absurd hidle hbusy
  · rw [State.setPort_phase, hidle] at hd
    cases hd
  · obtain ⟨op, hd, rfl⟩ := serveRequest_leaves_idle (s := s.takeRequest rest) hidle he hbusy
    obtain ⟨hkey, hc, hd', hinit⟩ := State.accept_starts hbusy
    refine ⟨w, rest, op.instr, hport, hd, ?_, hkey, hinit⟩
    cases op with
    | hash => exact .inr ⟨rfl, hc, hd'⟩
    | hash24 => exact .inl rfl
  · exact absurd rfl hbusy

/-! ### The write lock (R250) -/

/-- The write bit of a request is bit 0 of its kind `space ++ we` (R90, R91). -/
theorem getLsbD_writeBit (w : ReqWord) : w.getLsbD 128 = (reqKind w).getLsbD 0 := by
  simp [reqKind]

/-- A busy engine drops every request whose write bit is set. -/
theorem serveRequest_write_busy {w : ReqWord} {s : State} (hbusy : s.busy = true) (hwrite : w.getLsbD 128 = true) :
    serveRequest w s = .next s := by
  have hkind (k : BitVec 3) (hk : reqKind w = k) : k.getLsbD 0 = true := by rw [← hk, ← getLsbD_writeBit, hwrite]
  rcases decodeReq_cases w with ⟨hk, _⟩ | ⟨_, e⟩ | ⟨_, e⟩ | ⟨_, e⟩ | ⟨hk, _⟩ | ⟨hk, _⟩ | ⟨hk, _⟩ | ⟨_, e⟩
  · cases hkind _ hk
  · exact (serveRequest_ok e s).trans (exec_decodeCsrw_busy hbusy _ _)
  · exact (serveRequest_ok e s).trans (execKeyw_busy hbusy _ _)
  · exact (serveRequest_ok e s).trans (execMsgw_busy hbusy _ _)
  · cases hkind _ hk
  · cases hkind _ hk
  · cases hkind _ hk
  · exact serveRequest_error e s

/-- Every request whose write bit is clear is answered, and changes nothing else. -/
theorem serveRequest_read {w : ReqWord} (hread : w.getLsbD 128 = false) (s : State) :
    ∃ v, serveRequest w s = .next (s.respond v) := by
  have hkind (k : BitVec 3) (hk : reqKind w = k) : k.getLsbD 0 = false := by rw [← hk, ← getLsbD_writeBit, hread]
  rcases decodeReq_cases w with ⟨_, e⟩ | ⟨hk, _⟩ | ⟨hk, _⟩ | ⟨hk, _⟩ | ⟨_, e⟩ | ⟨_, e⟩ | ⟨_, e⟩ | ⟨hk, _⟩
  · exact ⟨_, serveRequest_ok e s⟩
  · cases hkind _ hk
  · cases hkind _ hk
  · cases hkind _ hk
  · exact ⟨_, serveRequest_error e s⟩
  · exact ⟨_, serveRequest_error e s⟩
  · exact ⟨_, serveRequest_error e s⟩
  · cases hkind _ hk

/-- Settles O41: the write bit tells the four kinds of writes from the four kinds of reads. -/
theorem writeLockDropsEveryHostWrite : Obligations.WriteLockDropsEveryHostWrite := by
  intro s w rest hport
  refine ⟨fun hbusy hwrite => ?_, fun hread => ?_⟩
  · exact (step_request hport).trans
      (serveRequest_write_busy (s := s.takeRequest rest) (State.busy_eq_true.mpr hbusy) hwrite)
  · obtain ⟨v, e⟩ := serveRequest_read hread (s.takeRequest rest)
    exact ⟨v, (step_request hport).trans e⟩

end Sys2Proof.Machine
end

section
/-! The shape of a run (spec/70_reset_and_hazards.md R256): two engines left to themselves that agree on the control
registers go through the same phases, because no micro-operation moves these by what it reads from a buffer. -/

namespace Sys2Proof.Machine

open Sys2Proof

/-! ### One micro-operation -/

/-- `next_load` reads MSG_LEN alone (R29). -/
theorem State.nextLoad_congr {s t : State} (h : s.msgLen = t.msgLen) (o : Word) : s.nextLoad o = t.nextLoad o := by
  unfold State.nextLoad
  rw [h]

theorem SameControl.errorEntry {s t : State} (h : SameControl s t) (e : ErrorKind) :
    SameControl (s.errorEntry e) (t.errorEntry e) :=
  { h with phase := rfl }

/-- The loaded word and the draws are no control registers. -/
theorem SameControl.loaded {s t : State} (h : SameControl s t) (w w' : Word) (last : Bool) (drawn drawn' : Nat) :
    SameControl (s.loaded w last drawn) (t.loaded w' last drawn') :=
  { h with phase := rfl, last := rfl }

/-- INIT sets OFF, RC and LAST, so that the runs need not agree on them before it (R140). -/
theorem sameControl_initialised {s t : State} (hlen : s.msgLen = t.msgLen) (hcr : s.cr = t.cr) (hdr : s.dr = t.dr)
    (hcap : s.msgCap = t.msgCap) : SameControl s.initialised t.initialised where
  phase := State.nextLoad_congr hlen 0#64
  off := rfl
  rc := rfl
  cr := hcr
  dr := hdr
  last := rfl
  msgLen := hlen
  msgCap := hcap

/-- Two outcomes that are states with the same control registers. -/
def SameControlOutcome (a b : Host.Outcome State Fault Refusal) : Prop :=
  ∃ s t : State, a = .next s ∧ b = .next t ∧ SameControl s t

section
variable {s t : State}

theorem SameControl.execLdblk (h : SameControl s t) : SameControlOutcome (execLdblk s) (execLdblk t) := by
  have hoff := congrArg BitVec.toNat h.off
  have hcap := congrArg BitVec.toNat h.msgCap
  rcases execLdblk_loads s with ⟨hs, es⟩ | ⟨hs, w, drawn, es⟩ <;>
    rcases execLdblk_loads t with ⟨ht, et⟩ | ⟨ht, w', drawn', et⟩
  · exact ⟨_, _, es, et, h.errorEntry _⟩
  · omega
  · omega
  · exact ⟨_, _, es, et, h.loaded w w' false drawn drawn'⟩

theorem SameControl.execLdtail (h : SameControl s t) : SameControlOutcome (execLdtail s) (execLdtail t) := by
  have hlen := congrArg BitVec.toNat h.msgLen
  have hcap := congrArg BitVec.toNat h.msgCap
  rcases execLdtail_loads s with ⟨hs, es⟩ | ⟨hs, w, drawn, es⟩ <;>
    rcases execLdtail_loads t with ⟨ht, et⟩ | ⟨ht, w', drawn', et⟩
  · exact ⟨_, _, es, et, h.errorEntry _⟩
  · omega
  · omega
  · exact ⟨_, _, es, et, h.loaded w w' true drawn drawn'⟩

theorem SameControl.execXout (h : SameControl s t) : SameControlOutcome (execXout s) (execXout t) := by
  rcases execXout_cases s with ⟨hs, es⟩ | ⟨hs, es⟩ <;> rcases execXout_cases t with ⟨ht, et⟩ | ⟨ht, et⟩
  · exact ⟨_, _, es, et, { h with phase := rfl }⟩
  · rw [h.last, ht] at hs
    cases hs
  · rw [h.last, ht] at hs
    cases hs
  · have hoff : s.off + 8#64 = t.off + 8#64 := by rw [h.off]
    exact ⟨_, _, es, et, { h with off := hoff, phase := hoff ▸ State.nextLoad_congr h.msgLen _ }⟩

theorem SameControl.execCrnd (h : SameControl s t) : SameControlOutcome (execCrnd s) (execCrnd t) := by
  have hrc : s.rc + 1#64 = t.rc + 1#64 := by rw [h.rc]
  refine ⟨_, _, rfl, rfl, { h with rc := hrc, phase := ?_ }⟩
  simp only [h.rc, h.cr]

theorem SameControl.execFrnd (h : SameControl s t) : SameControlOutcome (execFrnd s) (execFrnd t) := by
  have hrc : s.rc + 1#64 = t.rc + 1#64 := by rw [h.rc]
  refine ⟨_, _, rfl, rfl, { h with rc := hrc, phase := ?_ }⟩
  simp only [h.rc, h.dr]

/-- Every micro-operation keeps the agreement. -/
theorem SameControl.exec_uop {i : Instr} (h : SameControl s t) (hd : decodeUop s.phase = .ok i) :
    SameControlOutcome (exec i s) (exec i t) := by
  rcases decodeUop_cases s.phase with ⟨_, e⟩ | ⟨_, e⟩ | ⟨_, e⟩ | ⟨_, e⟩ | ⟨_, e⟩ | ⟨_, e⟩ | ⟨_, e⟩ | ⟨_, e⟩ | ⟨_, e⟩ |
    ⟨_, e⟩ | ⟨_, e⟩ <;> rw [e] at hd <;> cases hd <;> simp only [exec]
  · exact ⟨_, _, execInit_eq s, execInit_eq t, sameControl_initialised h.msgLen h.cr h.dr h.msgCap⟩
  · exact h.execLdblk
  · exact h.execLdtail
  · exact ⟨_, _, rfl, rfl, { h with rc := rfl, phase := rfl }⟩
  · exact h.execCrnd
  · exact h.execXout
  · exact ⟨_, _, rfl, rfl, { h with rc := rfl, phase := rfl }⟩
  · exact h.execFrnd
  · exact ⟨_, _, rfl, rfl, { h with phase := rfl }⟩

/-! ### The run -/

/-- Left to itself, the engine waits in IDLE or executes the micro-operation of PHASE. -/
theorem step_alone_cases (hport : s.port = []) (hstep : step s = .next t) :
    (s.phase = Phase.idle ∧ t = s) ∨ ∃ i, decodeUop s.phase = .ok i ∧ exec i s = .next t := by
  have halone : s.setPort s.port.tail = s := State.setPort_self (by rw [hport]; rfl)
  rcases step_cases hstep with ⟨u, hidle, hu, rfl, _⟩ | ⟨u, i, hu, hd, he, _⟩ | ⟨w, rest, hw, _⟩ | ⟨rest, hw, _⟩
  · cases hu.trans halone
    exact .inl ⟨hidle, rfl⟩
  · cases hu.trans halone
    exact .inr ⟨i, hd, he⟩
  · cases hport.symm.trans hw
  · cases hport.symm.trans hw

/-- No event comes to be pending by a step of the engine. -/
theorem step_port_nil (hport : s.port = []) (hstep : step s = .next t) : t.port = [] := by
  rcases step_alone_cases hport hstep with ⟨_, rfl⟩ | ⟨i, hd, he⟩
  · exact hport
  · rw [exec_uop_keeps hd he]
    exact hport

/-- A step of the engine on one side is matched on the other: both wait, or both execute the same micro-operation. -/
theorem SameControl.step {s' : State} (h : SameControl s t) (hs : s.port = []) (ht : t.port = [])
    (hstep : step s = .next s') : ∃ t', step t = .next t' ∧ SameControl s' t' := by
  rcases step_alone_cases hs hstep with ⟨hidle, rfl⟩ | ⟨i, hd, he⟩
  · exact ⟨t, (step_nil ht).trans (engineTurn_idle (h.phase ▸ hidle)), h⟩
  · obtain ⟨u, v, hu, hv, huv⟩ := h.exec_uop hd
    cases hu.symm.trans he
    exact ⟨v, (step_uop ht (h.phase ▸ hd)).trans hv, huv⟩

/-- A run of at least one step is a step and the rest of the run. -/
theorem run_succ_next {n : Nat} (h : run (n + 1) s = .next t) : ∃ u, step s = .next u ∧ run n u = .next t := by
  cases hstep : step s with
  | next u => exact ⟨u, rfl, by simpa only [run, hstep] using h⟩
  | fault => simp [run, hstep] at h
  | refused => simp [run, hstep] at h

theorem SameControl.run {n : Nat} {s' : State} (h : SameControl s t) (hs : s.port = []) (ht : t.port = [])
    (hrun : run n s = .next s') : ∃ t', run n t = .next t' ∧ SameControl s' t' := by
  induction n generalizing s t with
  | zero =>
    cases hrun
    exact ⟨t, rfl, h⟩
  | succ n ih =>
    obtain ⟨u, hsu, hrest⟩ := run_succ_next hrun
    obtain ⟨v, htv, huv⟩ := h.step hs ht hsu
    obtain ⟨t', hrun', h'⟩ := ih huv (step_port_nil hs hsu) (step_port_nil ht htv) hrest
    exact ⟨t', run_step htv hrun', h'⟩

/-- INIT of an engine left to itself. -/
theorem step_init_alone (hinit : s.phase = Phase.init) (hport : s.port = []) : step s = .next s.initialised :=
  (step_uop hport (i := .init) (by rw [hinit]; rfl)).trans (execInit_eq s)

end

/-- Settles O50: INIT makes the control registers agree, and from there every step keeps them so. -/
theorem runShapeIsIndependentOfKeyAndMessage : Obligations.RunShapeIsIndependentOfKeyAndMessage := by
  intro s t hs ht hsport htport hlen hcr hdr hcap n s' hrun
  cases n with
  | zero =>
    cases hrun
    exact ⟨t, rfl, ht.trans hs.symm⟩
  | succ n =>
    obtain ⟨u, hsu, hrest⟩ := run_succ_next hrun
    cases (step_init_alone hs hsport).symm.trans hsu
    obtain ⟨t', hrun', h'⟩ := (sameControl_initialised hlen hcr hdr hcap).run hsport htport hrest
    exact ⟨t', run_step (step_init_alone ht htport) hrun', h'.phase.symm⟩

end Sys2Proof.Machine
end

section
/-! The length of a run (spec/70_reset_and_hazards.md R255, spec/40_word_codec.md R123): whatever bytes were written, one
pass per full block inside MSG_CAP, then the tail and the finalisation, or the read past MSG_CAP that fails. Only the
counts and the outcome are followed here, not the words, so no byte need be known and the message need not fit. -/

namespace Sys2Proof.Machine

open Sys2Proof

/-- An engine left to itself in a run with these parameters. -/
structure RunningAlone (len cap c d : Nat) (s : State) : Prop extends Running s where
  port : s.port = []
  msgLen : s.msgLen.toNat = len
  msgCap : s.msgCap.toNat = cap
  cr : s.cr.toNat = c
  dr : s.dr.toNat = d

/-- The engine is about to load the block or the tail after `n` full blocks. -/
structure AboutToLoad (len cap c d n : Nat) (s : State) : Prop extends RunningAlone len cap c d s where
  off : s.off.toNat = 8 * n
  phase : s.phase = if 8 ≤ len - 8 * n then Phase.ldblk else Phase.ldtail

/-- A load inside the buffer and the pass that takes its block in (R146). -/
theorem busyRun_load_pass {s : State} {w : Word} {last : Bool} {drawn : Nat} (hport : s.port = [])
    (hcr : 1 ≤ s.cr.toNat) (hbusy : s.phase ≠ Phase.idle) (hload : step s = .next (s.loaded w last drawn))
    (hfits : last = false → s.off.toNat + 8 ≤ s.msgLen.toNat) :
    BusyRun (s.cr.toNat + 3) s (s.loaded w last drawn).afterPass := by
  have hpass : BusyRun (s.cr.toNat + 2) (s.loaded w last drawn) _ :=
    busyRun_pass (s := s.loaded w last drawn) rfl hport hcr hfits
  have hsteps : s.cr.toNat + 3 = 1 + (s.cr.toNat + 2) := by omega
  rw [hsteps]
  exact (BusyRun.one hload hbusy).trans hpass

section
variable {len cap c d n : Nat} {s t : State}

/-- A run goes on: the working registers move, what it rests on stays. -/
theorem RunningAlone.of_moved (h : RunningAlone len cap c d s) (ht : t = { s with
      v0 := t.v0, v1 := t.v1, v2 := t.v2, v3 := t.v3, m := t.m, phase := t.phase, off := t.off, rc := t.rc
      last := t.last, draws := t.draws }) : RunningAlone len cap c d t := by
  rw [ht]
  exact { h with }

theorem AboutToLoad.busy (h : AboutToLoad len cap c d n s) : s.phase ≠ Phase.idle := by
  rw [h.phase]
  split_ifs <;> decide

theorem RunningAlone.init (h : RunningAlone len cap c d s) (hinit : s.phase = Phase.init) :
    BusyRun 1 s s.initialised ∧ AboutToLoad len cap c d 0 s.initialised := by
  have hphase : s.initialised.phase = if 8 ≤ len then Phase.ldblk else Phase.ldtail := by
    rw [← h.msgLen]
    exact s.nextLoad_zero
  exact ⟨.one (step_init_alone hinit h.port) (by rw [hinit]; decide),
    { h.of_moved rfl with off := rfl, phase := hphase }⟩

/-! ### The full blocks -/

/-- One full block of the message inside the buffer. -/
theorem AboutToLoad.block (h : AboutToLoad len cap c d n s) (hfull : 8 * (n + 1) ≤ len) (hinside : 8 * (n + 1) ≤ cap) :
    ∃ t, BusyRun (c + 3) s t ∧ AboutToLoad len cap c d (n + 1) t := by
  have hoff := h.off
  have hlen := h.msgLen
  have hcap := h.msgCap
  have hphase : s.phase = Phase.ldblk := h.phase.trans (if_pos (by omega))
  obtain ⟨w, drawn, hload⟩ : ∃ w drawn, step s = .next (s.loaded w false drawn) := by
    rw [step_uop h.port (i := .ldblk) (by rw [hphase]; rfl)]
    rcases execLdblk_loads s with ⟨hpast, _⟩ | ⟨_, hloaded⟩
    · omega
    · exact hloaded
  have hrun := busyRun_load_pass h.port h.counts.1 h.busy hload fun _ => by omega
  refine ⟨_, h.cr ▸ hrun, { h.of_moved rfl with off := ?_, phase := ?_ }⟩
  · show (s.off + 8#64).toNat = 8 * (n + 1)
    bv_omega
  · show (if 8 ≤ s.msgLen.toNat - (s.off.toNat + 8) then Phase.ldblk else Phase.ldtail) = _
    rw [hlen, hoff]
    rfl

/-- The first `n` full blocks, one after the other. -/
theorem AboutToLoad.blocks (h : AboutToLoad len cap c d 0 s) (hfull : 8 * n ≤ len) (hinside : 8 * n ≤ cap) :
    ∃ t, BusyRun (n * (c + 3)) s t ∧ AboutToLoad len cap c d n t := by
  induction n with
  | zero => exact ⟨s, by rw [Nat.zero_mul]; exact .zero s, h⟩
  | succ n ih =>
    obtain ⟨t, hrun, ht⟩ := ih (by omega) (by omega)
    obtain ⟨u, hblock, hu⟩ := ht.block hfull hinside
    exact ⟨u, by rw [Nat.succ_mul]; exact hrun.trans hblock, hu⟩

/-! ### The two ends of a run -/

/-- The tail of a message inside the buffer, after which the engine is about to finalise. -/
theorem AboutToLoad.tail (h : AboutToLoad len cap c d (len / 8) s) (hfits : len ≤ cap) :
    ∃ t, BusyRun (c + 3) s t ∧ RunningAlone len cap c d t ∧ t.phase = Phase.xff := by
  have hphase : s.phase = Phase.ldtail := h.phase.trans (if_neg (by omega))
  obtain ⟨w, drawn, hload⟩ : ∃ w drawn, step s = .next (s.loaded w true drawn) := by
    rw [step_uop h.port (i := .ldtail) (by rw [hphase]; rfl)]
    rcases execLdtail_loads s with ⟨hpast, _⟩ | ⟨_, hloaded⟩
    · rw [h.msgCap, h.msgLen] at hpast
      omega
    · exact hloaded
  have hrun := busyRun_load_pass h.port h.counts.1 h.busy hload (by simp)
  exact ⟨_, h.cr ▸ hrun, h.of_moved rfl, rfl⟩

/-- The first load past MSG_CAP, of a block or of the tail, takes the error (R123). -/
theorem AboutToLoad.fails (h : AboutToLoad len cap c d (cap / 8) s) (hlong : cap < len) :
    step s = .next (s.errorEntry .internalExtractionFailure) := by
  have hoff := h.off
  have hlen := h.msgLen
  have hcap := h.msgCap
  have hphase := h.phase
  split_ifs at hphase
  · rw [step_uop h.port (i := .ldblk) (by rw [hphase]; rfl)]
    rcases execLdblk_loads s with ⟨_, e⟩ | ⟨hinside, _⟩
    · exact e
    · omega
  · rw [step_uop h.port (i := .ldtail) (by rw [hphase]; rfl)]
    rcases execLdtail_loads s with ⟨_, e⟩ | ⟨hinside, _⟩
    · exact e
    · omega

/-- A message inside the buffer is hashed to the end. -/
theorem RunningAlone.ends_done (h : RunningAlone len cap c d s) (hinit : s.phase = Phase.init) (hfits : len ≤ cap) :
    ∃ t, BusyRun (doneSteps len c d) s t ∧
      t.phase = Phase.idle ∧ t.done = true ∧ t.error = false ∧ t.err = 0#8 := by
  obtain ⟨hrun₁, h₁⟩ := h.init hinit
  obtain ⟨s₂, hrun₂, h₂⟩ := h₁.blocks (n := len / 8) (by omega) (by omega)
  obtain ⟨s₃, hrun₃, h₃, hxff⟩ := h₂.tail hfits
  have hrun₄ := busyRun_finish hxff h₃.port h₃.counts.2
  rw [h₃.dr] at hrun₄
  have hsteps : doneSteps len c d = 1 + len / 8 * (c + 3) + (c + 3) + (1 + d + 1) := by
    rw [doneSteps, Nat.succ_mul]
    omega
  exact ⟨s₃.finished, hsteps ▸ ((hrun₁.trans hrun₂).trans hrun₃).trans hrun₄, rfl, rfl, h₃.error, h₃.err⟩

/-- A longer message is absorbed up to the load that fails. -/
theorem RunningAlone.reaches_failing_load (h : RunningAlone len cap c d s) (hinit : s.phase = Phase.init)
    (hlong : cap < len) :
    ∃ u, BusyRun (1 + cap / 8 * (c + 3)) s u ∧ AboutToLoad len cap c d (cap / 8) u := by
  obtain ⟨hrun₁, h₁⟩ := h.init hinit
  obtain ⟨u, hrun₂, hu⟩ := h₁.blocks (n := cap / 8) (by omega) (by omega)
  exact ⟨u, hrun₁.trans hrun₂, hu⟩

end

/-- A state of the invariant with no event pending is in a run with its own parameters. -/
theorem Inv.runningAlone {s : State} (h : Inv s) (hbusy : s.phase ≠ Phase.idle) (hport : s.port = []) :
    RunningAlone s.msgLen.toNat s.msgCap.toNat s.cr.toNat s.dr.toNat s :=
  { h.running hbusy with port := hport, msgLen := rfl, msgCap := rfl, cr := rfl, dr := rfl }

/-- Settles O51: the blocks by induction on their number, then the finalisation or the failing load. -/
theorem runsTakeTheListedNumberOfSteps : Obligations.RunsTakeTheListedNumberOfSteps := by
  intro s hinv hinit hport
  have halone := hinv.runningAlone (by rw [hinit]; decide) hport
  refine ⟨fun hfits => ?_, fun hlong => ?_⟩
  · obtain ⟨t, ⟨hrun, hbusy⟩, hdone⟩ := halone.ends_done hinit hfits
    exact ⟨⟨t, hrun, hdone⟩, hbusy⟩
  · obtain ⟨u, hload, hu⟩ := halone.reaches_failing_load hinit hlong
    obtain ⟨hrun, hbusy⟩ := hload.trans (.one (hu.fails hlong) hu.busy)
    have hoff : u.off.toNat = 8 * (s.msgCap.toNat / 8) := hu.off
    exact ⟨⟨_, hrun, rfl, hu.done, rfl, rfl, hu.result, hoff⟩, hbusy, u, hload.1, hu.phase⟩

end Sys2Proof.Machine
end
